-- ==== Sys2Proof/Word.lean ====
section
/-! DEFINITION. The codec's byte and the names of its three memories (00_scope.md R6, R7; 20_memory.md R30). -/

namespace Sys2Proof

/-- A byte is 8 bits, unsigned (00_scope.md R6, R7). -/
abbrev Byte := BitVec 8

/-- The three address spaces (20_memory.md R30). -/
inductive Space where
  /-- `CB`, the channel buffer memory (10_state.md R22). -/
  | cb
  /-- `PM`, the payload memory (10_state.md R23). -/
  | pm
  /-- `OM`, the output memory (10_state.md R24). -/
  | om
deriving DecidableEq, Repr

end Sys2Proof
end

