-- ==== Sys2Proof/Syntax.lean ====
section
/-! DEFINITION. The codec's commands, one constructor per row of spec/opcode_table.json (30_encoding.md R51). -/

namespace Sys2Proof

/-- A command. Every operand is implicit (30_encoding.md R52), so no constructor has a field. -/
inductive Instr where
  /-- `EMBED` (41_embed.md R70). -/
  | embed
  /-- `EXTRACT` (42_extract.md R80). -/
  | extract
deriving DecidableEq, Repr

end Sys2Proof
end

