-- ==== Sys2Proof/Decode.lean ====
section
/-! DEFINITION. The command decoder and encoder (30_encoding.md R50, R51, R53). -/

namespace Sys2Proof

/-- Why a word is no command. -/
inductive DecodeError where
  /-- A bit above bit 0 is set: such bits "are not part of the command" and what becomes of them is `HOST_BINDING`'s
  (30_encoding.md R53), which is not modelled (notes/assumptions/13.md). Safe. -/
  | bitsAboveOp
deriving DecidableEq, Repr

/-- The opcode map of 30_encoding.md R51 on the word a host writes to `CMD`: field `OP` is bit 0 and there is no other
bit (R50). Total: both values of `OP` name a command, and a wider word is rejected by name. -/
def decode (word : Nat) : Except DecodeError Instr :=
  if word = 0 then .ok .embed
  else if word = 1 then .ok .extract
  else .error .bitsAboveOp

/-- The command word of 30_encoding.md R51: `OP = 0` for `EMBED`, `OP = 1` for `EXTRACT`. -/
def encode : Instr → BitVec 1
  | .embed => 0
  | .extract => 1

/-- What the decoder reads from an instruction of `nbits` bits whose bits are `w` (the host's question). A command is
one register write (20_memory.md R42), so there are no words to lay out in memory. -/
def decodeTableWord (nbits w : Nat) : Option Instr :=
  match decode (w % 2 ^ nbits) with
  | .ok i => some i
  | .error _ => none

end Sys2Proof
end

