-- ==== Sys2Proof/Config.lean ====
section
/-! DEFINITION. The codec's open parameters (00_scope.md R6) and the free values: what the spec leaves unspecified. -/

namespace Sys2Proof

/-- The two open parameters of 00_scope.md R6. A value of this type is a constant field of State, so that every
statement over all states is over every configuration (notes/assumptions/1.md). -/
structure Config where
  /-- `CB_BYTES`: number of bytes of `CB`. -/
  cbBytes : Nat
  /-- `LW`: width in bits of `LEN`, `PLEN`, `OLEN`, `CUR`. -/
  lw : Nat
deriving DecidableEq, Repr

/-- `QMAX = floor(CB_BYTES / 4)` (00_scope.md R6). -/
def Config.qmax (c : Config) : Nat := c.cbBytes / 4

/-- Size in bytes of each space: `CB_BYTES`, and `QMAX` for `PM` and `OM` (00_scope.md R6, 20_memory.md R30). -/
def Config.size (c : Config) : Space → Nat
  | .cb => c.cbBytes
  | .pm => c.qmax
  | .om => c.qmax

/-- The constraint of 00_scope.md R6, `2^LW - 1 >= CB_BYTES`. -/
abbrev Config.wf (c : Config) : Prop := c.cbBytes < 2 ^ c.lw

/-- `CB_BYTES = 16`, `LW = 5`: the configuration of programs P1 to P5 (95_test_vectors.md). DESIGN CHOICE
(notes/assumptions/2.md): the one State.reset takes. -/
def Config.programs : Config := { cbBytes := 16, lw := 5 }

/-- FREE VALUE (notes/assumptions/6.md): what a byte that nothing has written since power-up holds. "any value, fixed
until written" (10_state.md R27, 70_reset_and_hazards.md R123). No body: no proof can see it. -/
opaque Config.powerUp : Space → Nat → Byte

/-- FREE VALUE (notes/assumptions/5.md): what the n-th RESET move leaves in `CUR`, "unspecified" (10_state.md R27). -/
opaque Config.resetCur : Nat → Nat

/-- FREE VALUE (notes/assumptions/5.md): what the n-th RESET move leaves in `OPL`, "unspecified" (10_state.md R27). -/
opaque Config.resetOpl : Nat → BitVec 1

end Sys2Proof
end

