-- ==== Sys2Proof/Script.lean ====
section
/-! DEFINITION. The host's moves (10_state.md R11), as the lines of a host script (30_encoding.md R55, R56). -/

namespace Sys2Proof

/-- One turn: a line of a host script (30_encoding.md R55), a pseudo-operation that is more than a list of lines
(R56), or a turn of the engine. Registers are named by the numbers of R54. -/
inductive HostAct where
  /-- `WR reg, value`. Register 0 is `CMD`: `EMBED` is `wr 0 0` and `EXTRACT` is `wr 0 1`, the accept of 10_state.md
  R20, after which the engine works in its own turns. -/
  | wr (reg value : Nat)
  /-- `RD reg`. -/
  | rd (reg : Nat)
  /-- `WB space, off, byte`. -/
  | wb (sp : Space) (off : Nat) (b : Byte)
  /-- `RB space, off`. -/
  | rb (sp : Space) (off : Nat)
  /-- `RESET`. When it breaks an `EMBED` off, `drawn` is how many byte writes of the quad in progress were done (the
  draw of 70_reset_and_hazards.md R121, notes/assumptions/14.md). -/
  | reset (drawn : Nat)
  /-- `EMBED!` and `EXTRACT!` (R56): the write of `CMD` with word `word`, and waiting until it is done, as one step
  (the atomic view of 70_reset_and_hazards.md R128, notes/assumptions/8.md). -/
  | call (word : Nat)
  /-- `WAIT` (R56): poll `STATUS` until `DONE = 1`. -/
  | wait
  /-- No host move: the engine takes one of its steps (notes/assumptions/7.md). -/
  | tick
deriving DecidableEq, Repr

end Sys2Proof
end

