-- ==== Sys2Proof/Machine/State.lean ====
section
/-! DEFINITION. The codec's state as plain data, the reasons a step can stop, and the state after reset
(10_state.md R12 to R27). -/

namespace Sys2Proof.Machine

open Sys2Proof

/-- A memory: the bytes written since power-up, as (offset, byte) pairs, offsets strictly rising (`Memory.wf`). An
unlisted offset holds no written value; what a read of it gives is the free value `Config.powerUp`
(notes/assumptions/6.md). -/
abbrev Memory := List Host.Cell

/-- `STATUS` by its four fields (10_state.md R19). The word the host reads is `Status.word`. -/
structure Status where
  /-- Bit 0: an operation is in progress. -/
  busy : Bool
  /-- Bit 1: an operation has completed since the last accept or reset. -/
  done : Bool
  /-- Bit 2: the boolean result. -/
  ok : Bool
  /-- Bit 3: the command broke the `LEN <= CB_BYTES` precondition. -/
  fault : Bool
deriving DecidableEq, Repr

/-- The causes a command can report (60_exceptions.md R100, R104). Both are taken as next states. -/
inductive Cause where
  /-- `BadLength` (60_exceptions.md R102). -/
  | badLength
  /-- `InsufficientCapacity` (60_exceptions.md R101). -/
  | insufficientCapacity
deriving DecidableEq, Repr

/-- Why the machine stops. -/
inductive Fault where
  /-- Raised by a quad step of the engine that would touch an offset outside `sp`. The spec shows that no access is out
  of range (41_embed.md R76, 42_extract.md R86): only states that no run reaches raise it. Safe
  (notes/assumptions/17.md). -/
  | outOfRange (sp : Space)
deriving DecidableEq, Repr

/-- Why a step is refused. -/
inductive Refusal where
  /-- Raised by an arm of exec whose command has no meaning yet; no arm is. Safe. -/
  | notModelled (mnemonic : String)
  /-- Raised by a host move that breaks the access contract while `STATUS.BUSY = 1`, a write of `CMD` among them:
  "a script that contains one is refused" (70_reset_and_hazards.md R127, U3). Safe. -/
  | contractBreach
  /-- Raised by a host move the interface does not have: a register number, a direction, a value wider than the
  register, an offset outside the space (30_encoding.md R53, 20_memory.md R30, U13, U14). Safe. -/
  | noSuchAccess
  /-- Raised by a word written to `CMD` with a bit above bit 0, which is no command word (30_encoding.md R53). Safe
  (notes/assumptions/13.md). -/
  | noSuchCommand
deriving DecidableEq, Repr

/-- The machine. Plain data; INVENTORY.md lists each field with its rule. -/
structure State where
  /-- `CB_BYTES` and `LW` (00_scope.md R6). No step changes it. -/
  cfg : Config
  /-- `LEN` (10_state.md R13). -/
  len : Nat
  /-- `PLEN` (10_state.md R14). -/
  plen : Nat
  /-- `OLEN` (10_state.md R15). -/
  olen : Nat
  /-- `STATUS` (10_state.md R19). -/
  status : Status
  /-- `CUR`, the cursor (10_state.md R16). -/
  cur : Nat
  /-- `OPL`, the operation latch (10_state.md R17). -/
  opl : BitVec 1
  /-- `CB` (10_state.md R22). -/
  cb : Memory
  /-- `PM` (10_state.md R23). -/
  pm : Memory
  /-- `OM` (10_state.md R24). -/
  om : Memory
  /-- The host agent (10_state.md R11): its moves still to come, first one first. -/
  script : List HostAct
  /-- The host agent: what its `RD` and `RB` lines returned, newest first. -/
  replies : List Nat
  /-- The model's own: how many RESET moves there were; feeds the free values of `CUR` and `OPL`. -/
  resets : Nat
deriving DecidableEq, Repr

/-- `STATUS` after reset, `0b0000` (10_state.md R27). -/
def Status.idle : Status := { busy := false, done := false, ok := false, fault := false }

/-- The state right after power-up and reset with configuration `c` (10_state.md R27). `CUR` and `OPL` are unspecified
there: 0 is a DESIGN CHOICE (notes/assumptions/4.md). Nothing is written to any memory and the host has no move yet. -/
def State.resetWith (c : Config) : State :=
  { cfg := c, len := 0, plen := 0, olen := 0, status := Status.idle, cur := 0, opl := 0,
    cb := [], pm := [], om := [], script := [], replies := [], resets := 0 }

/-- The state after reset (10_state.md R27), with the configuration of the spec's own programs
(notes/assumptions/2.md). -/
def State.reset : State := State.resetWith Config.programs

end Sys2Proof.Machine
end

