-- ==== Sys2Proof/Machine/Flags.lean ====
section
/-! DEFINITION. `STATUS`: its word and the only two ways it changes, accept and complete (10_state.md R19 to R21). -/

namespace Sys2Proof.Machine

/-- The 4-bit word the host reads: `{FAULT, OK, DONE, BUSY}`, `BUSY` at bit 0 (30_encoding.md R54). -/
def Status.word (st : Status) : BitVec 4 :=
  BitVec.ofNat 4 (st.busy.toNat + 2 * st.done.toNat + 4 * st.ok.toNat + 8 * st.fault.toNat)

/-- Accept: `BUSY <- 1; DONE <- 0; OK <- 0; FAULT <- 0` (10_state.md R20). -/
def Status.accepted (st : Status) : Status :=
  { st with busy := true, done := false, ok := false, fault := false }

/-- Complete: `BUSY <- 0; DONE <- 1; OK <- ok` (10_state.md R20). -/
def Status.completed (ok : Bool) (st : Status) : Status :=
  { st with busy := false, done := true, ok := ok }

/-- The flag `raise BadLength` sets before `complete(0)` (10_state.md R20); `raise InsufficientCapacity` sets none. -/
def Status.marked (c : Cause) (st : Status) : Status :=
  match c with
  | .badLength => { st with fault := true }
  | .insufficientCapacity => st

end Sys2Proof.Machine
end

