-- ==== Sys2Proof/Machine/Ops.lean ====
section
/-! DEFINITION. The named operations: memory bytes, accept, complete, reporting a cause. -/

namespace Sys2Proof.Machine

open Sys2Proof

/-- Sequencing of outcomes: the second runs on the first's next state. -/
def andThen (o : Host.Outcome State Fault Refusal) (f : State → Host.Outcome State Fault Refusal) :
    Host.Outcome State Fault Refusal :=
  match o with
  | .next s => f s
  | .fault r => .fault r
  | .refused r => .refused r

/-- The canonical form of a memory: offsets strictly rising, so none twice. -/
abbrev Memory.wf (m : Memory) : Prop := m.Pairwise fun x y => x.1 < y.1

/-- Every listed offset is inside a space of `n` bytes (20_memory.md R30). -/
abbrev Memory.within (m : Memory) (n : Nat) : Prop := ∀ x ∈ m, x.1 < n

/-- The byte written at an offset, if any was since power-up. -/
def Memory.read? : Memory → Nat → Option Byte
  | [], _ => none
  | (b, v) :: m, a => if a = b then some v else Memory.read? m a

/-- A one-byte write (20_memory.md R35); it keeps the canonical form. -/
def Memory.write : Memory → Nat → Byte → Memory
  | [], a, v => [(a, v)]
  | (b, w) :: m, a, v =>
    if a < b then (a, v) :: (b, w) :: m
    else if a = b then (a, v) :: m
    else (b, w) :: Memory.write m a v

/-- The memory of a space. The three are disjoint (10_state.md R25). -/
def State.mem (s : State) : Space → Memory
  | .cb => s.cb
  | .pm => s.pm
  | .om => s.om

/-- The state with another memory in a space. -/
def State.setMem (s : State) (sp : Space) (m : Memory) : State :=
  match sp with
  | .cb => { s with cb := m }
  | .pm => { s with pm := m }
  | .om => { s with om := m }

/-- `MemRead(S, a, 1)` (00_scope.md R8): the written byte, or the unspecified byte of a place never written since
power-up, the same at every read (70_reset_and_hazards.md R123). -/
def State.byte (s : State) (sp : Space) (a : Nat) : Byte :=
  ((s.mem sp).read? a).getD (Config.powerUp sp a)

/-- `MemWrite(S, a, 1, v)` (00_scope.md R8). -/
def State.setByte (s : State) (sp : Space) (a : Nat) (v : Byte) : State :=
  s.setMem sp ((s.mem sp).write a v)

/-- Accept of a command with `OP = op` (10_state.md R20): `OPL <- op; CUR <- 0`, `STATUS = 0b0001`, and `OLEN <- 0`
when `op = 1` only. -/
def accept (op : BitVec 1) (s : State) : State :=
  { s with
    opl := op
    cur := 0
    status := s.status.accepted
    olen := if op = 1 then 0 else s.olen }

/-- `complete(ok)` (10_state.md R20). -/
def complete (ok : Bool) (s : State) : State :=
  { s with status := s.status.completed ok }

/-- Reporting a cause, the codec's whole "exception entry" (10_state.md R20, 60_exceptions.md R101, R102, R107): nothing
is saved, no control moves; `BadLength` sets `FAULT`, and either cause does `complete(0)`, as one step. There is no
return from it (60_exceptions.md R108): the next accept clears the flags. -/
def raiseCause (c : Cause) (s : State) : State :=
  complete false { s with status := s.status.marked c }

end Sys2Proof.Machine
end

