-- ==== Sys2Proof/Machine/Operands.lean ====
section
/-! DEFINITION. The bit-quad layout (40_quad_layout.md R60 to R65) and the implicit operands of the commands
(30_encoding.md R52). -/

namespace Sys2Proof.Machine

open Sys2Proof

/-- The low-bit mask (40_quad_layout.md R64). -/
def lowMask : Byte := 0x03

/-- The cover-bit mask (40_quad_layout.md R64). -/
def coverMask : Byte := 0xFC

/-- The terminator (40_quad_layout.md R64). -/
def terminator : Byte := 0x00

/-- Group `k` of a unit: `g_k(b) = b[7-2k : 6-2k]` (40_quad_layout.md R61). -/
def group (b : Byte) (k : Nat) : Byte := (b >>> (6 - 2 * k)) &&& lowMask

/-- Channel byte `k` of `pack` (40_quad_layout.md R62): cover bits kept, group `k` in the low two bits. -/
def packByte (b : Byte) (k : Nat) (c : Byte) : Byte := (c &&& coverMask) ||| group b k

/-- `pack(b, c0, c1, c2, c3)` (40_quad_layout.md R62). -/
def pack (b c0 c1 c2 c3 : Byte) : Byte × Byte × Byte × Byte :=
  (packByte b 0 c0, packByte b 1 c1, packByte b 2 c2, packByte b 3 c3)

/-- `unpack(c0, c1, c2, c3)` (40_quad_layout.md R63). -/
def unpack (c0 c1 c2 c3 : Byte) : Byte :=
  ((c0 &&& lowMask) <<< 6) ||| ((c1 &&& lowMask) <<< 4) ||| ((c2 &&& lowMask) <<< 2) ||| (c3 &&& lowMask)

/-- `Q = floor(LEN / 4)`, the number of whole quads (41_embed.md R72). -/
def State.quads (s : State) : Nat := s.len / 4

/-- Unit `i` of an `EMBED`: `PM[i]` for `i < PLEN`, else the terminator, which the engine supplies itself
(41_embed.md R73, R75). -/
def State.unit (s : State) (i : Nat) : Byte := if i < s.plen then s.byte .pm i else terminator

/-- The byte that the quad at offset `a` of `CB` carries (42_extract.md R83). -/
def State.quadAt (s : State) (a : Nat) : Byte :=
  unpack (s.byte .cb a) (s.byte .cb (a + 1)) (s.byte .cb (a + 2)) (s.byte .cb (a + 3))

/-- The cause the checks E1 and E2 of `EMBED` find, in that order (41_embed.md R71, R72; 60_exceptions.md R106). -/
def embedCause (s : State) : Option Cause :=
  if s.len > s.cfg.cbBytes then some .badLength
  else if s.quads > s.plen then none
  else some .insufficientCapacity

/-- The cause the check X1 of `EXTRACT` finds (42_extract.md R81). -/
def extractCause (s : State) : Option Cause :=
  if s.len > s.cfg.cbBytes then some .badLength else none

end Sys2Proof.Machine
end

