-- ==== Sys2Proof/Machine/Embed.lean ====
section
/-! DEFINITION. The `EMBED` command (41_embed.md R70 to R79). -/

namespace Sys2Proof.Machine

open Sys2Proof

/-- The read and the write of channel byte `k` of the quad at `CUR` (41_embed.md R70, E3). -/
def embedByte (b : Byte) (k : Nat) (s : State) : State :=
  s.setByte .cb (s.cur + k) (packByte b k (s.byte .cb (s.cur + k)))

/-- The first `n` byte writes of the quad at `CUR`, `k = 0, 1, ..., n-1` in that order (20_memory.md R38). -/
def embedBytes (b : Byte) : Nat → State → State
  | 0, s => s
  | n + 1, s => embedByte b n (embedBytes b n s)

/-- One quad step (41_embed.md R73): the quad at `CUR` takes unit `CUR div 4`, and `CUR <- CUR + 4`. -/
def embedQuad (s : State) : State :=
  { embedBytes (s.unit (s.cur / 4)) 4 s with cur := s.cur + 4 }

/-- The access of a quad step that would be outside a memory, if one would (none ever is: 41_embed.md R76). -/
def embedFault? (s : State) : Option Fault :=
  if s.cur / 4 < s.plen ∧ ¬ s.cur / 4 < s.cfg.size .pm then some (.outOfRange .pm)
  else if s.cfg.size .cb < s.cur + 4 then some (.outOfRange .cb)
  else none

/-- The quad step with its accesses checked. -/
def embedStep (s : State) : Host.Outcome State Fault Refusal :=
  match embedFault? s with
  | some f => .fault f
  | none => .next (embedQuad s)

/-- The loop E3 (41_embed.md R70), `while CUR div 4 <= PLEN`, at most `n` passes. -/
def embedLoop : Nat → State → Host.Outcome State Fault Refusal
  | 0, s => .next s
  | n + 1, s => if s.cur / 4 ≤ s.plen then andThen (embedStep s) (embedLoop n) else .next s

/-- E1 to E4 (41_embed.md R70) on an accepted command. The loop makes `PLEN + 1` passes (R73). -/
def embedAccepted (s : State) : Host.Outcome State Fault Refusal :=
  match embedCause s with
  | some c => .next (raiseCause c s)
  | none => andThen (embedLoop (s.plen + 1) s) fun t => .next (complete true t)

/-- `EMBED`, from the write of `CMD` to its completion (41_embed.md R70). A write of `CMD` while `BUSY = 1` breaks the
access contract and is refused (10_state.md R18, 70_reset_and_hazards.md R127). -/
def execEmbed (s : State) : Host.Outcome State Fault Refusal :=
  if s.status.busy then .refused .contractBreach else embedAccepted (accept 0 s)

end Sys2Proof.Machine
end

