-- ==== Sys2Proof/Machine/Extract.lean ====
section
/-! DEFINITION. The `EXTRACT` command (42_extract.md R80 to R89). -/

namespace Sys2Proof.Machine

open Sys2Proof

/-- One quad step (42_extract.md R83): the byte of the quad at `CUR` is formed, `CUR <- CUR + 4`, and unless it is the
terminator it is appended: `OM[OLEN] <- b; OLEN <- OLEN + 1`. -/
def extractQuad (s : State) : State :=
  if s.quadAt s.cur = terminator then { s with cur := s.cur + 4 }
  else { s.setByte .om s.olen (s.quadAt s.cur) with cur := s.cur + 4, olen := s.olen + 1 }

/-- The access of a quad step that would be outside a memory, if one would (none ever is: 42_extract.md R86). -/
def extractFault? (s : State) : Option Fault :=
  if s.cfg.size .cb < s.cur + 4 then some (.outOfRange .cb)
  else if s.quadAt s.cur ≠ terminator ∧ ¬ s.olen < s.cfg.size .om then some (.outOfRange .om)
  else none

/-- The quad step with its accesses checked. -/
def extractStep (s : State) : Host.Outcome State Fault Refusal :=
  match extractFault? s with
  | some f => .fault f
  | none => .next (extractQuad s)

/-- The loop X2 (42_extract.md R80), `while CUR + 4 <= LEN`, left at a terminator quad, at most `n` passes. -/
def extractLoop : Nat → State → Host.Outcome State Fault Refusal
  | 0, s => .next s
  | n + 1, s =>
    if s.cur + 4 ≤ s.len then
      andThen (extractStep s) fun t => if s.quadAt s.cur = terminator then .next t else extractLoop n t
    else .next s

/-- X1 to X3 (42_extract.md R80) on an accepted command. The loop reads at most `floor(LEN / 4)` quads (R82). -/
def extractAccepted (s : State) : Host.Outcome State Fault Refusal :=
  match extractCause s with
  | some c => .next (raiseCause c s)
  | none => andThen (extractLoop s.quads s) fun t => .next (complete true t)

/-- `EXTRACT`, from the write of `CMD` to its completion (42_extract.md R80). A write of `CMD` while `BUSY = 1` breaks
the access contract and is refused (10_state.md R18, 70_reset_and_hazards.md R127). -/
def execExtract (s : State) : Host.Outcome State Fault Refusal :=
  if s.status.busy then .refused .contractBreach else extractAccepted (accept 1 s)

end Sys2Proof.Machine
end

