-- ==== Sys2Proof/Machine/Engine.lean ====
section
/-! DEFINITION. The engine at work in its own steps: one quad of the operation in progress, or its completion
(10_state.md R10). -/

namespace Sys2Proof.Machine

open Sys2Proof

/-- One engine step of an accepted `EMBED` (41_embed.md R70): the checks, which read only `LEN` and `PLEN` and so
answer the same at every step (notes/assumptions/16.md), then a quad step while units are left, then completion. -/
def embedTick (s : State) : Host.Outcome State Fault Refusal :=
  match embedCause s with
  | some c => .next (raiseCause c s)
  | none => if s.cur / 4 ≤ s.plen then embedStep s else .next (complete true s)

/-- An `EXTRACT` has read its terminator quad: until then every quad read was appended, so `CUR = 4 * OLEN`; the
terminator quad alone moves `CUR` and not `OLEN` (42_extract.md R83). DESIGN CHOICE (notes/assumptions/15.md): the
engine needs no state of its own to remember it. -/
def extractStopped (s : State) : Bool := s.cur != 4 * s.olen

/-- One engine step of an accepted `EXTRACT` (42_extract.md R80). -/
def extractTick (s : State) : Host.Outcome State Fault Refusal :=
  match extractCause s with
  | some c => .next (raiseCause c s)
  | none =>
    if !extractStopped s && decide (s.cur + 4 ≤ s.len) then extractStep s else .next (complete true s)

/-- One engine step while `BUSY = 1`: of the operation `OPL` holds (10_state.md R17). -/
def engineStep (s : State) : Host.Outcome State Fault Refusal :=
  if s.opl = 0 then embedTick s else extractTick s

/-- A turn left to the engine: a step while `BUSY = 1`; an idle codec changes no state (60_exceptions.md R115). -/
def engineTurn (s : State) : Host.Outcome State Fault Refusal :=
  if s.status.busy then engineStep s else .next s

end Sys2Proof.Machine
end

