-- ==== Sys2Proof/WellFormed.lean ====
section
/-! DEFINITION. Which commands and which host moves are well formed (30_encoding.md R52 to R54, 20_memory.md R30). -/

namespace Sys2Proof

/-- A command has no operand and no reserved encoding (30_encoding.md R52, R53): every command is well formed. -/
def Instr.wf : Instr → Bool
  | .embed => true
  | .extract => true

/-- The move names an access the host interface has: a register of 30_encoding.md R54 in a direction it allows, a value
that the register's width holds (10_state.md R13, R14), an offset inside its space (20_memory.md R30). The word written
to `CMD` is the decoder's matter. -/
def HostAct.wf (c : Config) : HostAct → Bool
  | .wr reg value => reg == 0 || ((reg == 2 || reg == 3) && decide (value < 2 ^ c.lw))
  | .rd reg => reg == 1 || reg == 2 || reg == 3 || reg == 4
  | .wb sp off _ => (sp == .cb || sp == .pm) && decide (off < c.size sp)
  | .rb sp off => decide (off < c.size sp)
  | .reset _ => true
  | .call _ => true
  | .wait => true
  | .tick => true

end Sys2Proof
end

