-- ==== Sys2Proof/Machine/HostPort.lean ====
section
/-! DEFINITION. The host's moves and when each is allowed (10_state.md R11, 30_encoding.md R54 to R56,
70_reset_and_hazards.md R120 to R127). -/

namespace Sys2Proof.Machine

open Sys2Proof

/-- The host interface has this access (20_memory.md R30, 30_encoding.md R53, R54; U13, U14). -/
def accessExists (c : Config) (a : HostAct) : Bool := a.wf c

/-- The access contract (70_reset_and_hazards.md R125, R126): every access while `BUSY = 0`; while `BUSY = 1` only reads
of `STATUS`, reads of `CB` during an `EXTRACT`, reset, and polling (notes/assumptions/10.md). -/
def contractAllows (s : State) : HostAct → Bool
  | .wr _ _ => !s.status.busy
  | .rd reg => reg == 1 || !s.status.busy
  | .wb _ _ _ => !s.status.busy
  | .rb sp _ => !s.status.busy || (sp == .cb && s.opl == 1)
  | .reset _ => true
  | .call _ => !s.status.busy
  | .wait => true
  | .tick => true

/-- A write of `CMD` (10_state.md R18, R20): the command is accepted, and the engine then works in its own turns. -/
def startCommand (word : Nat) (s : State) : Host.Outcome State Fault Refusal :=
  match decode word with
  | .ok i => .next (accept (encode i) s)
  | .error _ => .refused .noSuchCommand

/-- A command and the wait for its end, as one step (30_encoding.md R56, 70_reset_and_hazards.md R128). -/
def callCommand (word : Nat) (s : State) : Host.Outcome State Fault Refusal :=
  match decode word with
  | .ok i => exec i s
  | .error _ => .refused .noSuchCommand

/-- `WR reg, value` by register number (30_encoding.md R54). The last case is shut out by `accessExists`. -/
def writeReg (reg value : Nat) (s : State) : Host.Outcome State Fault Refusal :=
  if reg = 0 then startCommand value s
  else if reg = 2 then .next { s with len := value }
  else if reg = 3 then .next { s with plen := value }
  else .refused .noSuchAccess

/-- `RD reg` by register number (30_encoding.md R54): the value goes to the host. -/
def readReg (reg : Nat) (s : State) : Host.Outcome State Fault Refusal :=
  if reg = 1 then .next { s with replies := s.status.word.toNat :: s.replies }
  else if reg = 2 then .next { s with replies := s.len :: s.replies }
  else if reg = 3 then .next { s with replies := s.plen :: s.replies }
  else if reg = 4 then .next { s with replies := s.olen :: s.replies }
  else .refused .noSuchAccess

/-- An `EMBED` has passed its checks and has units left: its next step is a quad step. -/
def embedWriting (s : State) : Bool :=
  s.status.busy && s.opl == 0 && (embedCause s).isNone && decide (s.cur / 4 ≤ s.plen) && (embedFault? s).isNone

/-- What a reset leaves of the operation it breaks off (70_reset_and_hazards.md R121): of an `EMBED`, the first `drawn`
byte writes of the quad in progress are done too; of an `EXTRACT`, whose quad step writes at most one byte, nothing
beyond the steps it has taken (notes/assumptions/14.md). -/
def brokenOff (drawn : Nat) (s : State) : State :=
  if embedWriting s then embedBytes (s.unit (s.cur / 4)) (min drawn 4) s else s

/-- `RESET` (70_reset_and_hazards.md R120, R121; 10_state.md R27): `STATUS`, `LEN`, `PLEN`, `OLEN` are 0; `CUR` and
`OPL` are unspecified, free values; no memory is written beyond what the broken-off operation had written. -/
def resetEvent (drawn : Nat) (s : State) : State :=
  { brokenOff drawn s with
    status := Status.idle
    len := 0
    plen := 0
    olen := 0
    cur := Config.resetCur s.resets % 2 ^ s.cfg.lw
    opl := Config.resetOpl s.resets
    resets := s.resets + 1 }

/-- `WAIT` (30_encoding.md R56): over when `DONE = 1`; otherwise a turn of the engine and another poll. -/
def waitTurn (s : State) : Host.Outcome State Fault Refusal :=
  if s.status.done then .next s
  else andThen (engineTurn s) fun t => .next { t with script := .wait :: t.script }

/-- The effect of a move that exists and is allowed; each takes effect at once (70_reset_and_hazards.md R125). -/
def perform (a : HostAct) (s : State) : Host.Outcome State Fault Refusal :=
  match a with
  | .wr reg value => writeReg reg value s
  | .rd reg => readReg reg s
  | .wb sp off b => .next (s.setByte sp off b)
  | .rb sp off => .next { s with replies := (s.byte sp off).toNat :: s.replies }
  | .reset drawn => .next (resetEvent drawn s)
  | .call word => callCommand word s
  | .wait => waitTurn s
  | .tick => engineTurn s

/-- A move of the host. One the interface does not have, and one that breaks the access contract, is refused
(70_reset_and_hazards.md R127; U3, U13, U14). -/
def hostMove (a : HostAct) (s : State) : Host.Outcome State Fault Refusal :=
  if accessExists s.cfg a then
    if contractAllows s a then perform a s else .refused .contractBreach
  else .refused .noSuchAccess

/-- One turn: the next line of the script; with no line left, a turn of the engine (70_reset_and_hazards.md R130: once
busy, it "keeps stepping until it completes"). -/
def takeTurn (s : State) : Host.Outcome State Fault Refusal :=
  match s.script with
  | [] => engineTurn s
  | a :: rest => hostMove a { s with script := rest }

/-- `LOAD space, off, b0 b1 ... bn` (30_encoding.md R56). -/
def loadLines (sp : Space) (off : Nat) : List Byte → List HostAct
  | [] => []
  | b :: bs => .wb sp off b :: loadLines sp (off + 1) bs

/-- `FILL space, off, count, byte` (30_encoding.md R56). -/
def fillLines (sp : Space) (off count : Nat) (b : Byte) : List HostAct :=
  loadLines sp off (List.replicate count b)

/-- The reads of `EXPECT space[off ..] = b0 ... bn` (30_encoding.md R56): one `RB` for each of the `n` bytes. -/
def expectLines (sp : Space) (off n : Nat) : List HostAct :=
  (List.range n).map fun i => .rb sp (off + i)

end Sys2Proof.Machine
end

