-- ==== Sys2Proof/Machine/Step.lean ====
section
/-! DEFINITION. One step of the machine, and where it takes its next command from. -/

namespace Sys2Proof.Machine

open Sys2Proof

/-- One step: one turn of the host's script or of the engine. -/
def step (s : State) : Host.Outcome State Fault Refusal := takeTurn s

/-- The state whose next step is the command with bits `w`: the host's next move is that command, called
(notes/assumptions/20.md). -/
def State.withFetchWord (s : State) (nbits w : Nat) : State :=
  { s with script := .call (w % 2 ^ nbits) :: s.script }

end Sys2Proof.Machine
end

