-- ==== Sys2Proof/Safety.lean ====
section
/-! DEFINITION. What a safe state is: the invariants the spec gives, and when an operation has succeeded. -/

namespace Sys2Proof.Machine

open Sys2Proof

/-- `n` steps, stopping at the first fault or refusal. -/
def run : Nat → State → Host.Outcome State Fault Refusal
  | 0, s => .next s
  | n + 1, s => andThen (step s) (run n)

/-- The command succeeded (60_exceptions.md R100): `DONE`, `OK`, and no `FAULT`. -/
def State.succeeded (s : State) : Bool := s.status.done && s.status.ok && !s.status.fault

/-- The flag relations of 10_state.md R28. -/
structure Status.Legal (st : Status) : Prop where
  busy_not_done : ¬ (st.busy = true ∧ st.done = true)
  ok_done : st.ok = true → st.done = true ∧ st.fault = false
  fault_done : st.fault = true → st.done = true ∧ st.ok = false

/-- Where the engine stands inside an `EMBED` (41_embed.md R76): at the start, or past the checks with
`CUR <= 4 * (PLEN + 1)`. -/
def State.EmbedAt (s : State) : Prop :=
  s.cur = 0 ∨ (s.len ≤ s.cfg.cbBytes ∧ s.plen < s.quads ∧ s.cur ≤ 4 * (s.plen + 1))

/-- Where the engine stands inside an `EXTRACT` (42_extract.md R83, R86): every quad read was appended but a terminator
quad, which was the last. -/
def State.ExtractAt (s : State) : Prop :=
  (s.cur = 0 ∧ s.olen = 0) ∨
    (s.len ≤ s.cfg.cbBytes ∧ s.cur ≤ 4 * s.quads ∧ (s.cur = 4 * s.olen ∨ s.cur = 4 * s.olen + 4))

/-- The invariant of the machine (10_state.md R28, R15, R16; 41_embed.md R76; 42_extract.md R86; 20_memory.md R30): legal
configuration, registers inside their widths, memories canonical and inside their spaces, legal flags,
`OLEN <= QMAX`, and while `BUSY = 1` a cursor that is a multiple of 4 and stands where its operation can. -/
structure State.Inv (s : State) : Prop where
  cfg_wf : s.cfg.wf
  len_fits : s.len < 2 ^ s.cfg.lw
  plen_fits : s.plen < 2 ^ s.cfg.lw
  cur_fits : s.cur < 2 ^ s.cfg.lw
  olen_le : s.olen ≤ s.cfg.qmax
  status_legal : s.status.Legal
  cur_aligned : s.status.busy = true → s.cur % 4 = 0
  embed_at : s.status.busy = true → s.opl = 0 → s.EmbedAt
  extract_at : s.status.busy = true → s.opl = 1 → s.ExtractAt
  mem_wf : ∀ sp, (s.mem sp).wf
  mem_within : ∀ sp, (s.mem sp).within (s.cfg.size sp)

end Sys2Proof.Machine
end

