-- ==== Sys2Proof/Certificates/Slice0/Obligations.lean ====
section
/-! DEFINITION. The statements for the provers. A Status is written busy, done, ok, fault; the word the host reads is
`{FAULT, OK, DONE, BUSY}`. A record `{ s with … }` in a conclusion says that every other field is as it was. -/

open Sys2Proof Sys2Proof.Machine

/-! ## Encoding, and what a step runs -/

/-- 30_encoding.md R51: the opcode map, and that a decoder is total on the two values of `OP`. -/
def Obligations.DecoderReadsTheOpcodeMap : Prop :=
  decode 0 = .ok .embed ∧ decode 1 = .ok .extract ∧ ∀ op : BitVec 1, ∃ i, decode op.toNat = .ok i

/-- 30_encoding.md R50, R51: decoding an encoded command gives it back. That no word of 2 or more is a command's is the
model's choice (notes/assumptions/13.md), so that among all numbers each command has one word. -/
def Obligations.DecodeAndEncodeAgree : Prop :=
  (∀ i : Instr, decode (encode i).toNat = .ok i) ∧
  ∀ (w : Nat) (i : Instr), decode w = .ok i → w = (encode i).toNat

/-- The model's choice (notes/assumptions/13.md), after 30_encoding.md R53: a word with a bit above bit 0 is rejected
by name, by the decoder and by a step that would run it. -/
def Obligations.WordsAboveOneBitAreRejected : Prop :=
  ∀ w : Nat, 2 ≤ w → decode w = .error .bitsAboveOp ∧
    ∀ (s : State) (rest : List HostAct), s.status.busy = false →
      (s.script = .call w :: rest ∨ s.script = .wr 0 w :: rest) → step s = .refused .noSuchCommand

/-- A called command (30_encoding.md R56, 70_reset_and_hazards.md R128): step is exec of the decoded command, on the
state whose script has moved past it. That a call is one step is DEDUCED (notes/assumptions/8.md, 20.md). -/
def Obligations.StepRunsTheDecodedCommand : Prop :=
  ∀ (s : State) (w : Nat) (i : Instr) (rest : List HostAct),
    s.script = .call w :: rest → decode w = .ok i → step s = exec i { s with script := rest }

/-- 10_state.md R18, R20, accept: a write of `CMD` while `BUSY = 0` sets `OPL`, `CUR`, `STATUS`, and `OLEN` for an
`EXTRACT` only. -/
def Obligations.WriteOfCmdAcceptsTheCommand : Prop :=
  ∀ (s : State) (w : Nat) (i : Instr) (rest : List HostAct),
    s.script = .wr 0 w :: rest → decode w = .ok i → s.status.busy = false →
    step s = .next { s with
      script := rest
      opl := encode i
      cur := 0
      status := ⟨true, false, false, false⟩
      olen := if i = .extract then 0 else s.olen }

/-! ## The layout -/

/-- 40_quad_layout.md R61: the table, bit by bit, as `pack` places the bits; group `k` of a unit in both its forms;
the document's example. -/
def Obligations.PackPlacesEachBit : Prop :=
  (∀ b c0 c1 c2 c3 : Byte,
    let d := pack b c0 c1 c2 c3
    (d.1.getLsbD 1 = b.getLsbD 7 ∧ d.1.getLsbD 0 = b.getLsbD 6) ∧
    (d.2.1.getLsbD 1 = b.getLsbD 5 ∧ d.2.1.getLsbD 0 = b.getLsbD 4) ∧
    (d.2.2.1.getLsbD 1 = b.getLsbD 3 ∧ d.2.2.1.getLsbD 0 = b.getLsbD 2) ∧
    (d.2.2.2.getLsbD 1 = b.getLsbD 1 ∧ d.2.2.2.getLsbD 0 = b.getLsbD 0)) ∧
  (∀ (b : Byte) (k : Nat), k < 4 →
    group b k = (b >>> (6 - 2 * k)) &&& 0b11 ∧ group b k = (b.extractLsb' (6 - 2 * k) 2).zeroExtend 8) ∧
  (group 0x48 0 = 0b01 ∧ group 0x48 1 = 0b00 ∧ group 0x48 2 = 0b10 ∧ group 0x48 3 = 0b00)

/-- 40_quad_layout.md R62: `pack` in both its forms, its corner cases and its worked examples. -/
def Obligations.PackIsTheFourNewBytes : Prop :=
  (∀ b c0 c1 c2 c3 : Byte,
    pack b c0 c1 c2 c3 =
      ((c0 &&& 0xFC) ||| ((b >>> 6) &&& 0b11), (c1 &&& 0xFC) ||| ((b >>> 4) &&& 0b11),
        (c2 &&& 0xFC) ||| ((b >>> 2) &&& 0b11), (c3 &&& 0xFC) ||| (b &&& 0b11)) ∧
    pack b c0 c1 c2 c3 =
      (c0.extractLsb' 2 6 ++ b.extractLsb' 6 2, c1.extractLsb' 2 6 ++ b.extractLsb' 4 2,
        c2.extractLsb' 2 6 ++ b.extractLsb' 2 2, c3.extractLsb' 2 6 ++ b.extractLsb' 0 2)) ∧
  (∀ c0 c1 c2 c3 : Byte,
    pack 0x00 c0 c1 c2 c3 = (c0 &&& 0xFC, c1 &&& 0xFC, c2 &&& 0xFC, c3 &&& 0xFC) ∧
    pack 0xFF c0 c1 c2 c3 = (c0 ||| 0x03, c1 ||| 0x03, c2 ||| 0x03, c3 ||| 0x03)) ∧
  (∀ (b c : Byte) (k : Nat), k < 4 → c &&& 0x03 = group b k → packByte b k c = c) ∧
  pack 0x48 0x00 0x00 0x00 0x00 = (0x01, 0x00, 0x02, 0x00) ∧
  pack 0x1B 0xA4 0x53 0xFE 0x01 = (0xA4, 0x51, 0xFE, 0x03)

/-- 40_quad_layout.md R65 (a), (b), (c), which the spec derives from R62 and R63. -/
def Obligations.PackAndUnpackLaws : Prop :=
  ∀ b c0 c1 c2 c3 : Byte,
    let d := pack b c0 c1 c2 c3
    unpack d.1 d.2.1 d.2.2.1 d.2.2.2 = b ∧
    (d.1 >>> 2 = c0 >>> 2 ∧ d.2.1 >>> 2 = c1 >>> 2 ∧ d.2.2.1 >>> 2 = c2 >>> 2 ∧ d.2.2.2 >>> 2 = c3 >>> 2) ∧
    pack (unpack c0 c1 c2 c3) c0 c1 c2 c3 = (c0, c1, c2, c3)

/-- 40_quad_layout.md R63: `unpack` in both its forms, its corner cases (the terminator and 0xFF, whatever the cover
bits) and its worked examples. -/
def Obligations.UnpackIsTheFourGroups : Prop :=
  (∀ c0 c1 c2 c3 : Byte,
    unpack c0 c1 c2 c3 =
      ((c0 &&& 0x03) <<< 6) ||| ((c1 &&& 0x03) <<< 4) ||| ((c2 &&& 0x03) <<< 2) ||| (c3 &&& 0x03) ∧
    unpack c0 c1 c2 c3 = c0.extractLsb' 0 2 ++ c1.extractLsb' 0 2 ++ c2.extractLsb' 0 2 ++ c3.extractLsb' 0 2 ∧
    (unpack c0 c1 c2 c3).toNat =
      c0.toNat % 4 * 64 + c1.toNat % 4 * 16 + c2.toNat % 4 * 4 + c3.toNat % 4 ∧
    (unpack c0 c1 c2 c3 = 0x00 ↔
      c0 &&& 0x03 = 0x00 ∧ c1 &&& 0x03 = 0x00 ∧ c2 &&& 0x03 = 0x00 ∧ c3 &&& 0x03 = 0x00) ∧
    (unpack c0 c1 c2 c3 = 0xFF ↔
      c0 &&& 0x03 = 0x03 ∧ c1 &&& 0x03 = 0x03 ∧ c2 &&& 0x03 = 0x03 ∧ c3 &&& 0x03 = 0x03)) ∧
  unpack 0x01 0x00 0x02 0x00 = 0x48 ∧ unpack 0x7E 0x82 0x55 0xA9 = 0xA5

/-! ## EMBED -/

/-- 41_embed.md R78, which the spec derives from R70: `EMBED` as one function, in its three cases, with the formula of
the rule. `CUR` and `OPL` are the model's hidden state (notes/assumptions/21.md). -/
def Obligations.EmbedIsTheOneStepFunction : Prop :=
  ∀ s : State, s.status.busy = false →
    (s.len > s.cfg.cbBytes →
      exec .embed s = .next { s with status := ⟨false, true, false, true⟩, cur := 0, opl := 0 }) ∧
    (s.len ≤ s.cfg.cbBytes → s.len / 4 ≤ s.plen →
      exec .embed s = .next { s with status := ⟨false, true, false, false⟩, cur := 0, opl := 0 }) ∧
    (s.len ≤ s.cfg.cbBytes → s.plen < s.len / 4 →
      ∃ t, exec .embed s = .next t ∧
        t = { s with status := ⟨false, true, true, false⟩, cur := 4 * (s.plen + 1), opl := 0, cb := t.cb } ∧
        ∀ a, t.byte .cb a =
          if a < 4 * (s.plen + 1) then
            (s.byte .cb a &&& 0xFC) |||
              (((if a / 4 < s.plen then s.byte .pm (a / 4) else 0x00) >>> (6 - 2 * (a % 4))) &&& 0x03)
          else s.byte .cb a)

/-- 43_properties.md R91: the capacity boundary, and at a failure `CB` unchanged. -/
def Obligations.CapacityBoundary : Prop :=
  ∀ s : State, s.status.busy = false → s.len ≤ s.cfg.cbBytes →
    ∃ t, exec .embed s = .next t ∧
      (t.status.ok = true ↔ s.plen + 1 ≤ s.len / 4) ∧
      (t.status.ok = true ↔ 4 * (s.plen + 1) ≤ s.len) ∧
      (s.len = 4 * s.plen → t.status.ok = false ∧ t.cb = s.cb) ∧
      (s.len = 4 * (s.plen + 1) → t.status.ok = true)

/-- 43_properties.md R92: whatever the outcome of an `EMBED`, bits 7 to 2 of every byte of `CB` are kept. -/
def Obligations.EmbedKeepsUpperBits : Prop :=
  ∀ s : State, s.status.busy = false →
    ∃ t, exec .embed s = .next t ∧ ∀ a, (t.byte .cb a).extractLsb' 2 6 = (s.byte .cb a).extractLsb' 2 6

/-- The stronger form in 43_properties.md R92, which the spec derives from R62: no byte of `CB` moves by more than
3. -/
def Obligations.EmbedMovesNoByteByMoreThanThree : Prop :=
  ∀ s : State, s.status.busy = false →
    ∃ t, exec .embed s = .next t ∧
      ∀ a, (t.byte .cb a).toNat ≤ (s.byte .cb a).toNat + 3 ∧ (s.byte .cb a).toNat ≤ (t.byte .cb a).toNat + 3

/-- 43_properties.md R97, which the spec derives from R62: a second `EMBED` with the same operands succeeds and
changes no byte of `CB`. -/
def Obligations.EmbedIsIdempotent : Prop :=
  ∀ s t : State, exec .embed s = .next t → t.status.ok = true →
    ∃ u, exec .embed t = .next u ∧ u.status.ok = true ∧ ∀ a, u.byte .cb a = t.byte .cb a

/-- 41_embed.md R73: with `CUR = 4i` and unit `i` left, an engine turn replaces quad `i` by `pack(b_i, …)`, sets `CUR
= 4i + 4`, and writes no other register. That an engine step is one quad is notes/assumptions/16.md. -/
def Obligations.EngineEmbedsOneQuad : Prop :=
  ∀ (s : State) (i : Nat) (rest : List HostAct),
    s.script = .tick :: rest → s.status.busy = true → s.opl = 0 →
    s.len ≤ s.cfg.cbBytes → s.plen < s.len / 4 → s.cur = 4 * i → i ≤ s.plen →
    ∃ t, step s = .next t ∧
      t = { s with script := rest, cb := t.cb, cur := 4 * i + 4 } ∧
      (t.byte .cb (4 * i), t.byte .cb (4 * i + 1), t.byte .cb (4 * i + 2), t.byte .cb (4 * i + 3)) =
        pack (if i < s.plen then s.byte .pm i else 0x00)
          (s.byte .cb (4 * i)) (s.byte .cb (4 * i + 1)) (s.byte .cb (4 * i + 2)) (s.byte .cb (4 * i + 3)) ∧
      ∀ a, (a < 4 * i ∨ 4 * i + 4 ≤ a) → t.byte .cb a = s.byte .cb a

/-! ## EXTRACT -/

/-- 42_extract.md R88, which the spec derives from R80 and R84, with `Q`, `r_q` and `t` as in R84: `EXTRACT` as one
function. The value of `CUR` is R84's; that `CUR` and `OPL` hold it after completion is the model's (DEDUCED,
notes/assumptions/21.md). -/
def Obligations.ExtractIsTheOneStepFunction : Prop :=
  ∀ s : State, s.status.busy = false →
    let r := fun q => unpack (s.byte .cb (4 * q)) (s.byte .cb (4 * q + 1)) (s.byte .cb (4 * q + 2)) (s.byte .cb (4 * q + 3))
    (s.len > s.cfg.cbBytes →
      exec .extract s = .next { s with status := ⟨false, true, false, true⟩, cur := 0, opl := 1, olen := 0 }) ∧
    (s.len ≤ s.cfg.cbBytes →
      ∃ t, exec .extract s = .next t ∧
        t = { s with status := ⟨false, true, true, false⟩, cur := t.cur, opl := 1, olen := t.olen, om := t.om } ∧
        (∀ z, z < s.len / 4 → r z = 0x00 → (∀ q, q < z → r q ≠ 0x00) → t.olen = z ∧ t.cur = 4 * (z + 1)) ∧
        ((∀ q, q < s.len / 4 → r q ≠ 0x00) → t.olen = s.len / 4 ∧ t.cur = 4 * (s.len / 4)) ∧
        ∀ j, t.byte .om j = if j < t.olen then r j else s.byte .om j)

/-- 42_extract.md R84, R85, which the spec derives: no byte of the output is 0x00, and the output is at most `QMAX`
bytes. -/
def Obligations.ExtractedBytesAreNotZero : Prop :=
  ∀ s : State, s.status.busy = false → s.len ≤ s.cfg.cbBytes →
    ∃ t, exec .extract s = .next t ∧ t.olen ≤ s.len / 4 ∧ t.olen ≤ s.cfg.qmax ∧
      ∀ j, j < t.olen → t.byte .om j ≠ 0x00

/-- 43_properties.md R94: a second `EXTRACT` with the same `LEN` and no write to `CB` in between ends the same,
whatever else the host changed. -/
def Obligations.ExtractIsIdempotent : Prop :=
  ∀ s t s' : State, exec .extract s = .next t →
    s'.status.busy = false → s'.cfg = t.cfg → s'.len = t.len → (∀ a, s'.byte .cb a = t.byte .cb a) →
    ∃ u, exec .extract s' = .next u ∧ u.status = t.status ∧ u.olen = t.olen ∧
      ∀ j, j < t.olen → u.byte .om j = t.byte .om j

/-- 42_extract.md R83: with `CUR = 4q` and the guard true, an engine turn forms `r_q`, sets `CUR = 4q + 4`, appends
`r_q` unless it is 0x00, and writes nothing else. That no terminator was read before is `CUR = 4 * OLEN`
(notes/assumptions/15.md). -/
def Obligations.EngineExtractsOneQuad : Prop :=
  ∀ (s : State) (q : Nat) (rest : List HostAct),
    s.script = .tick :: rest → s.status.busy = true → s.opl = 1 →
    s.len ≤ s.cfg.cbBytes → s.cur = 4 * q → s.olen = q → 4 * q + 4 ≤ s.len →
    let r := unpack (s.byte .cb (4 * q)) (s.byte .cb (4 * q + 1)) (s.byte .cb (4 * q + 2)) (s.byte .cb (4 * q + 3))
    (r = 0x00 → step s = .next { s with script := rest, cur := 4 * q + 4 }) ∧
    (r ≠ 0x00 → ∃ t, step s = .next t ∧
      t = { s with script := rest, om := t.om, cur := 4 * q + 4, olen := q + 1 } ∧
      t.byte .om q = r ∧ ∀ j, j ≠ q → t.byte .om j = s.byte .om j)

/-! ## Both commands -/

/-- 60_exceptions.md R100: a command ends in exactly one of three ways, told apart by `STATUS`; what each writes to
memory; nothing else is recorded. (`CUR` and `OPL` are hidden; `OLEN` is `EXTRACT`'s result.) -/
def Obligations.CommandEndsInOneOfThreeWays : Prop :=
  ∀ (i : Instr) (s : State), s.status.busy = false →
    ∃ t, exec i s = .next t ∧
      t = { s with status := t.status, cur := t.cur, opl := t.opl, olen := t.olen, cb := t.cb, om := t.om } ∧
      (i = .embed → t.olen = s.olen) ∧
      ((s.len > s.cfg.cbBytes ∧ t.status.word = 0b1010#4 ∧ t.cb = s.cb ∧ t.om = s.om ∧
         (i = .extract → t.olen = 0)) ∨
       (i = .embed ∧ s.len ≤ s.cfg.cbBytes ∧ s.len / 4 ≤ s.plen ∧ t.status.word = 0b0010#4 ∧
         t.cb = s.cb ∧ t.om = s.om) ∨
       (i = .embed ∧ s.len ≤ s.cfg.cbBytes ∧ s.plen < s.len / 4 ∧ t.status.word = 0b0110#4 ∧
         t.om = s.om ∧ ∀ a, 4 * (s.plen + 1) ≤ a → t.byte .cb a = s.byte .cb a) ∨
       (i = .extract ∧ s.len ≤ s.cfg.cbBytes ∧ t.status.word = 0b0110#4 ∧
         t.cb = s.cb ∧ ∀ j, t.olen ≤ j → t.byte .om j = s.byte .om j))

/-- 60_exceptions.md R101: when `EMBED` reports `InsufficientCapacity`, and that it then leaves everything as at
accept but `STATUS`; an `EXTRACT` never does. -/
def Obligations.InsufficientCapacityIsReported : Prop :=
  ∀ s : State, s.status.busy = false →
    (s.len ≤ s.cfg.cbBytes → s.len / 4 ≤ s.plen →
      exec .embed s = .next { s with status := ⟨false, true, false, false⟩, cur := 0, opl := 0 }) ∧
    (∃ t, exec .embed s = .next t ∧
      (t.status.word = 0b0010#4 ↔ s.len ≤ s.cfg.cbBytes ∧ s.len / 4 ≤ s.plen)) ∧
    ∃ t, exec .extract s = .next t ∧ t.status.word ≠ 0b0010#4

/-- 60_exceptions.md R102: a command with `LEN > CB_BYTES`, and no other, sets `FAULT` and completes with `OK = 0`,
touches no memory, and has not succeeded. That `CUR` and `OPL` still hold after completion what accept gave them is the
model's (DEDUCED, notes/assumptions/21.md). -/
def Obligations.BadLengthIsReported : Prop :=
  ∀ (i : Instr) (s : State), s.status.busy = false →
    ∃ t, exec i s = .next t ∧
      (t.status.fault = true ↔ s.len > s.cfg.cbBytes) ∧
      (t.status.fault = true → t.succeeded = false) ∧
      (s.len > s.cfg.cbBytes →
        t = { s with
          status := ⟨false, true, false, true⟩, cur := 0, opl := encode i,
          olen := if i = .extract then 0 else s.olen })

/-- 60_exceptions.md R106: a command reports at most one cause, each outcome having its own value of `STATUS`; when
both causes apply it reports `BadLength`. -/
def Obligations.BadLengthIsReportedFirst : Prop :=
  (∀ (i : Instr) (s t : State), exec i s = .next t → t.status.word ∈ [0b0110#4, 0b0010#4, 0b1010#4]) ∧
  ∀ s : State, s.status.busy = false → s.len > s.cfg.cbBytes → s.len / 4 ≤ s.plen →
    ∃ t, exec .embed s = .next t ∧ t.status.word = 0b1010#4

/-- 20_memory.md R36, the frame: outside its footprint a command changes no byte, and it never writes `LEN`, `PLEN`,
`PM`; an `EMBED` does not write `OLEN` or `OM`, an `EXTRACT` does not write `CB`. -/
def Obligations.CommandWritesOnlyItsFootprint : Prop :=
  ∀ (i : Instr) (s t : State), exec i s = .next t →
    t.cfg = s.cfg ∧ t.len = s.len ∧ t.plen = s.plen ∧ t.pm = s.pm ∧
    t.script = s.script ∧ t.replies = s.replies ∧ t.resets = s.resets ∧
    (i = .embed → t.olen = s.olen ∧ t.om = s.om ∧
      ∀ a, (4 * (s.plen + 1) ≤ a ∨ t.status.ok = false) → t.byte .cb a = s.byte .cb a) ∧
    (i = .extract → t.cb = s.cb ∧ ∀ j, t.olen ≤ j → t.byte .om j = s.byte .om j)

/-- 43_properties.md R98: a command that ends with `OK = 0` leaves everything as at accept, but `OLEN = 0` after a
faulting `EXTRACT`, whose only such outcome is `BadLength`. -/
def Obligations.FailureIsClean : Prop :=
  (∀ s t : State, exec .embed s = .next t → t.status.ok = false →
    t.cb = s.cb ∧ t.pm = s.pm ∧ t.om = s.om ∧ t.len = s.len ∧ t.plen = s.plen ∧ t.olen = s.olen) ∧
  (∀ s t : State, exec .extract s = .next t → t.status.ok = false →
    t.status.fault = true ∧
    t.cb = s.cb ∧ t.pm = s.pm ∧ t.om = s.om ∧ t.len = s.len ∧ t.plen = s.plen ∧ t.olen = 0)

/-- 10_state.md R26: the effect of a command is a function of its operands alone; what else two states hold, hidden
state and earlier results among it, makes no difference. -/
def Obligations.EffectDependsOnOperandsAlone : Prop :=
  ∀ s₁ s₂ : State, s₁.status.busy = false → s₂.status.busy = false → s₁.cfg = s₂.cfg → s₁.len = s₂.len →
    (s₁.plen = s₂.plen → (∀ i, i < s₁.plen → s₁.byte .pm i = s₂.byte .pm i) →
      (∀ a, a < 4 * (s₁.plen + 1) → s₁.byte .cb a = s₂.byte .cb a) →
      ∃ t₁ t₂, exec .embed s₁ = .next t₁ ∧ exec .embed s₂ = .next t₂ ∧ t₁.status = t₂.status ∧
        ∀ a, a < 4 * (s₁.plen + 1) → t₁.byte .cb a = t₂.byte .cb a) ∧
    ((∀ a, a < 4 * (s₁.len / 4) → s₁.byte .cb a = s₂.byte .cb a) →
      ∃ t₁ t₂, exec .extract s₁ = .next t₁ ∧ exec .extract s₂ = .next t₂ ∧ t₁.status = t₂.status ∧
        t₁.olen = t₂.olen ∧ ∀ j, j < t₁.olen → t₁.byte .om j = t₂.byte .om j)

/-- 43_properties.md R96 (b), which the spec derives, and 42_extract.md R89 (h): what an `EXTRACT` returns does not depend
on any cover bit, nor on any byte at or above `4 * (z + 1)`, `z` a zero quad (so the first one too); with no zero quad
it depends on the low bits of the whole quads below `LEN` alone. -/
def Obligations.ExtractIgnoresCoverBitsAndWhatFollows : Prop :=
  ∀ s₁ s₂ : State, s₁.status.busy = false → s₂.status.busy = false →
    s₁.cfg = s₂.cfg → s₁.len = s₂.len → s₁.len ≤ s₁.cfg.cbBytes →
    (∀ z, z < s₁.len / 4 → s₁.quadAt (4 * z) = 0x00 →
      (∀ a, a < 4 * (z + 1) → s₁.byte .cb a &&& 0x03 = s₂.byte .cb a &&& 0x03) →
      ∃ t₁ t₂, exec .extract s₁ = .next t₁ ∧ exec .extract s₂ = .next t₂ ∧ t₁.olen ≤ z ∧
        t₁.olen = t₂.olen ∧ ∀ j, j < t₁.olen → t₁.byte .om j = t₂.byte .om j) ∧
    ((∀ a, a < 4 * (s₁.len / 4) → s₁.byte .cb a &&& 0x03 = s₂.byte .cb a &&& 0x03) →
      ∃ t₁ t₂, exec .extract s₁ = .next t₁ ∧ exec .extract s₂ = .next t₂ ∧
        t₁.olen = t₂.olen ∧ ∀ j, j < t₁.olen → t₁.byte .om j = t₂.byte .om j)

/-- 43_properties.md R90, the round-trip law, for every initial content of `CB`. -/
def Obligations.RoundTrip : Prop :=
  ∀ s : State, s.status.busy = false →
    (∀ i, i < s.plen → s.byte .pm i ≠ 0x00) → 4 * (s.plen + 1) ≤ s.len → s.len ≤ s.cfg.cbBytes →
    ∃ t u, exec .embed s = .next t ∧ t.status.ok = true ∧ exec .extract t = .next u ∧ u.status.ok = true ∧
      u.olen = s.plen ∧ ∀ j, j < s.plen → u.byte .om j = s.byte .pm j

/-- The last sentence of 43_properties.md R90, which the spec derives from R84: the `EXTRACT` may have any `LEN'` that
holds the payload and its terminator. -/
def Obligations.RoundTripWithAnotherLength : Prop :=
  ∀ (s : State) (len' : Nat), s.status.busy = false →
    (∀ i, i < s.plen → s.byte .pm i ≠ 0x00) → 4 * (s.plen + 1) ≤ s.len → s.len ≤ s.cfg.cbBytes →
    4 * (s.plen + 1) ≤ len' → len' ≤ s.cfg.cbBytes →
    ∃ t u, exec .embed s = .next t ∧ exec .extract { t with len := len' } = .next u ∧ u.status.ok = true ∧
      u.olen = s.plen ∧ ∀ j, j < s.plen → u.byte .om j = s.byte .pm j

/-- 43_properties.md R95, which the spec derives from R75 and R84: truncation at an internal zero, for every
payload. -/
def Obligations.RoundTripStopsAtFirstZero : Prop :=
  ∀ (s : State) (z : Nat), s.status.busy = false →
    4 * (s.plen + 1) ≤ s.len → s.len ≤ s.cfg.cbBytes →
    z ≤ s.plen → (∀ i, i < z → s.byte .pm i ≠ 0x00) → (z < s.plen → s.byte .pm z = 0x00) →
    ∃ t u, exec .embed s = .next t ∧ t.status.ok = true ∧ exec .extract t = .next u ∧ u.status.ok = true ∧
      u.olen = z ∧ ∀ j, j < z → u.byte .om j = s.byte .pm j

/-- 43_properties.md R93: the empty payload. How many quads an `EXTRACT` read is said by `CUR` at complete, whose value
42_extract.md R84 gives (derived there); that it is still held after completion is the model's (DEDUCED,
notes/assumptions/21.md). -/
def Obligations.EmptyPayload : Prop :=
  ∀ s : State, s.status.busy = false → s.plen = 0 → s.len ≤ s.cfg.cbBytes →
    (4 ≤ s.len → ∃ t u, exec .embed s = .next t ∧ t.status.ok = true ∧
      (∀ a, t.byte .cb a = if a < 4 then s.byte .cb a &&& 0xFC else s.byte .cb a) ∧
      exec .extract t = .next u ∧ u.olen = 0 ∧ u.cur = 4) ∧
    (s.len < 4 → ∃ t u, exec .embed s = .next t ∧ t.status.ok = false ∧
      exec .extract s = .next u ∧ u.olen = 0 ∧ u.cur = 0)

/-! ## The engine in its own steps -/

/-- 70_reset_and_hazards.md R128, the atomic view, which the spec derives: writing `CMD` and waiting for `DONE` passes
only through states in which the host reads `STATUS = 0b0001` and, during an `EXTRACT`, an unchanged `CB`, and ends
where exec ends. The bound, at most `QMAX` quad steps between accept, complete and the last poll, rests on one engine
turn for each poll of `WAIT`, the model's choice (notes/assumptions/18.md), and on 8.md. -/
def Obligations.StepwiseOperationIsTheAtomicOne : Prop :=
  ∀ (s : State) (w : Nat) (i : Instr) (rest : List HostAct),
    s.status.busy = false → decode w = .ok i → s.script = .wr 0 w :: .wait :: rest →
    ∃ n, n ≤ s.cfg.qmax + 3 ∧ run n s = exec i { s with script := rest } ∧
      ∀ k, 0 < k → k + 1 < n →
        ∃ m : State, run k s = .next m ∧ m.status.word = 0b0001#4 ∧
          (i = .extract → ∀ a, m.byte .cb a = s.byte .cb a)

/-- 43_properties.md R99: left to itself a busy engine completes: an `EMBED` with no cause after at most `PLEN + 1 <=
QMAX` quad steps, an `EXTRACT` after at most `floor(LEN/4) <= QMAX`, a command with a cause with none (`q = 0`); one more
step completes it, and it never waits. That `CUR` is still where it was once a command with a cause has completed is the
model's (DEDUCED, notes/assumptions/21.md). -/
def Obligations.EveryOperationCompletes : Prop :=
  ∀ s : State, s.Inv → s.status.busy = true → s.script = [] →
    ∃ (q : Nat) (t : State), run (q + 1) s = .next t ∧ t.status.busy = false ∧ t.status.done = true ∧
      q ≤ s.cfg.qmax ∧ (s.opl = 0 → q ≤ s.plen + 1) ∧ (s.opl = 1 → q ≤ s.len / 4) ∧
      (s.len > s.cfg.cbBytes ∨ (s.opl = 0 ∧ s.len / 4 ≤ s.plen) → q = 0 ∧ t.cur = s.cur) ∧
      ∀ k, k ≤ q → ∃ m, run k s = .next m ∧ m.status.busy = true

/-- 70_reset_and_hazards.md R121: a reset after any number of engine turns of an `EMBED` leaves an initial part of its
writes: one offset below which all bytes are new and at or above which all are old; registers are 0 and `DONE` stays
0. The draw is notes/assumptions/14.md. That `PM` and `OM` survive the reset is the model's (DEDUCED,
notes/assumptions/24.md). -/
def Obligations.ResetDuringEmbedLeavesInitialWrites : Prop :=
  ∀ (s : State) (n drawn : Nat) (rest : List HostAct), s.status.busy = false →
    s.script = .wr 0 0 :: (List.replicate n .tick ++ .reset drawn :: rest) →
    ∃ (t : State) (m : Nat), run (n + 2) s = .next t ∧ m ≤ 4 * (s.plen + 1) ∧
      t.script = rest ∧ t.status.word = 0b0000#4 ∧ t.len = 0 ∧ t.plen = 0 ∧ t.olen = 0 ∧
      t.pm = s.pm ∧ t.om = s.om ∧
      ∀ a, t.byte .cb a = if a < m then packByte (s.unit (a / 4)) (a % 4) (s.byte .cb a) else s.byte .cb a

/-- 70_reset_and_hazards.md R121: any initial part of the writes may be what is left: each has its draw. The draw is
notes/assumptions/14.md. -/
def Obligations.ResetDuringEmbedCanLeaveAnyInitialWrites : Prop :=
  ∀ (s : State) (m : Nat), s.status.busy = false → s.len ≤ s.cfg.cbBytes → s.plen < s.len / 4 →
    m ≤ 4 * (s.plen + 1) →
    ∃ (n drawn : Nat) (t : State),
      run (n + 2) { s with script := .wr 0 0 :: (List.replicate n .tick ++ [.reset drawn]) } = .next t ∧
      t.status.word = 0b0000#4 ∧
      ∀ a, t.byte .cb a = if a < m then packByte (s.unit (a / 4)) (a % 4) (s.byte .cb a) else s.byte .cb a

/-- 70_reset_and_hazards.md R121: a reset after any number of engine turns of an `EXTRACT` leaves an initial part of
its output in `OM`, none of it from a terminator quad or after one. The draw is notes/assumptions/14.md. That `CB`,
`PM` and the other bytes of `OM` survive the reset is the model's (DEDUCED, notes/assumptions/24.md). -/
def Obligations.ResetDuringExtractLeavesInitialOutput : Prop :=
  ∀ (s : State) (n drawn : Nat) (rest : List HostAct), s.status.busy = false →
    s.script = .wr 0 1 :: (List.replicate n .tick ++ .reset drawn :: rest) →
    ∃ (t : State) (m : Nat), run (n + 2) s = .next t ∧ m ≤ s.len / 4 ∧
      t.script = rest ∧ t.status.word = 0b0000#4 ∧ t.len = 0 ∧ t.plen = 0 ∧ t.olen = 0 ∧
      t.pm = s.pm ∧ t.cb = s.cb ∧ (∀ j, j < m → s.quadAt (4 * j) ≠ 0x00) ∧
      ∀ j, t.byte .om j = if j < m then s.quadAt (4 * j) else s.byte .om j

/-- 20_memory.md R44: a host read of `CB` after any number of engine turns of an `EXTRACT` returns the byte held at
accept. -/
def Obligations.HostReadsUnchangedBufferDuringExtract : Prop :=
  ∀ (s : State) (n a : Nat) (rest : List HostAct), s.status.busy = false → a < s.cfg.cbBytes →
    s.script = .wr 0 1 :: (List.replicate n .tick ++ .rb .cb a :: rest) →
    ∃ t : State, run (n + 2) s = .next t ∧ t.script = rest ∧ t.replies = (s.byte .cb a).toNat :: s.replies

/-- 10_state.md R13, R14, R26, 41_embed.md R73, 42_extract.md R83: a turn of the engine changes none of `LEN`, `PLEN`,
`PM`, the configuration, the host's own data; of an `EMBED` not `OLEN` or `OM`, nor `CB` outside the quad at `CUR`; of
an `EXTRACT` not `CB`, nor `OM` at any offset but `OLEN`. An idle codec stays as it is (60_exceptions.md R115,
notes/assumptions/22.md). That `OPL` is kept by a turn that completes is the model's (DEDUCED,
notes/assumptions/21.md). -/
def Obligations.EngineTurnFrame : Prop :=
  ∀ s t : State, s.script = [] → step s = .next t →
    t.cfg = s.cfg ∧ t.len = s.len ∧ t.plen = s.plen ∧ t.opl = s.opl ∧ t.pm = s.pm ∧
    t.script = s.script ∧ t.replies = s.replies ∧ t.resets = s.resets ∧
    (s.opl = 0 → t.olen = s.olen ∧ t.om = s.om ∧
      ∀ a, (a < s.cur ∨ s.cur + 4 ≤ a) → t.byte .cb a = s.byte .cb a) ∧
    (s.opl = 1 → t.cb = s.cb ∧ ∀ j, j ≠ s.olen → t.byte .om j = s.byte .om j) ∧
    (s.status.busy = false → t = s)

/-! ## The host's moves -/

/-- 70_reset_and_hazards.md R126, R127: while `BUSY = 1`, of the accesses the interface has, exactly those outside the
contract are refused as breaches. That `BUSY` itself decides is DEDUCED (notes/assumptions/10.md); waiting and turns
left to the engine are the model's lines. -/
def Obligations.ContractBreachesAreRefused : Prop :=
  ∀ (s : State) (a : HostAct) (rest : List HostAct),
    s.script = a :: rest → s.status.busy = true → a.wf s.cfg = true →
    (step s = .refused .contractBreach ↔
      ¬ (a = .rd 1 ∨ (s.opl = 1 ∧ ∃ off, a = .rb .cb off) ∨ (∃ drawn, a = .reset drawn) ∨ a = .wait ∨ a = .tick))

/-- 20_memory.md R30, 30_encoding.md R53, R54 (U13, U14): exactly the moves the interface does not have are refused as
such: a register number 5 or above, a write of `STATUS` or `OLEN`, a value wider than the register, a read of `CMD`,
an offset outside its space, a write of `OM`. The refusal is DEDUCED (notes/assumptions/12.md). -/
def Obligations.AccessesTheInterfaceLacksAreRefused : Prop :=
  ∀ (s : State) (a : HostAct) (rest : List HostAct), s.script = a :: rest →
    (step s = .refused .noSuchAccess ↔
      (∃ reg v, a = .wr reg v ∧ (reg = 1 ∨ 4 ≤ reg ∨ ((reg = 2 ∨ reg = 3) ∧ 2 ^ s.cfg.lw ≤ v))) ∨
      (∃ reg, a = .rd reg ∧ (reg = 0 ∨ 5 ≤ reg)) ∨
      (∃ sp off b, a = .wb sp off b ∧ (sp = .om ∨ s.cfg.size sp ≤ off)) ∨
      (∃ sp off, a = .rb sp off ∧ s.cfg.size sp ≤ off))

/-- 30_encoding.md R54, 70_reset_and_hazards.md R125: the host's register writes, each at once; any value the register
holds is legal (10_state.md R13, R14). -/
def Obligations.HostWritesLengthRegisters : Prop :=
  ∀ (s : State) (v : Nat) (rest : List HostAct), s.status.busy = false → v < 2 ^ s.cfg.lw →
    (s.script = .wr 2 v :: rest → step s = .next { s with script := rest, len := v }) ∧
    (s.script = .wr 3 v :: rest → step s = .next { s with script := rest, plen := v })

/-- 30_encoding.md R54: what the host reads, by register number; `STATUS` at any time, the others while `BUSY = 0`
(70_reset_and_hazards.md R125, R126). The log of replies is the model's own (notes/assumptions/19.md). -/
def Obligations.HostReadsRegisters : Prop :=
  ∀ (s : State) (rest : List HostAct),
    (s.script = .rd 1 :: rest → step s = .next { s with
      script := rest
      replies := (s.status.busy.toNat + 2 * s.status.done.toNat + 4 * s.status.ok.toNat + 8 * s.status.fault.toNat)
        :: s.replies }) ∧
    (s.status.busy = false → s.script = .rd 2 :: rest →
      step s = .next { s with script := rest, replies := s.len :: s.replies }) ∧
    (s.status.busy = false → s.script = .rd 3 :: rest →
      step s = .next { s with script := rest, replies := s.plen :: s.replies }) ∧
    (s.status.busy = false → s.script = .rd 4 :: rest →
      step s = .next { s with script := rest, replies := s.olen :: s.replies })

/-- 10_state.md R22 to R25, 70_reset_and_hazards.md R123, R125: the host's byte write puts the byte in its place and
changes no other byte of any memory; its byte read returns the byte held and changes none. The log of replies is the
model's own (notes/assumptions/19.md). -/
def Obligations.HostAccessesBytes : Prop :=
  ∀ (s : State) (sp : Space) (off : Nat) (rest : List HostAct), s.status.busy = false → off < s.cfg.size sp →
    (∀ b, sp ≠ .om → s.script = .wb sp off b :: rest →
      ∃ t, step s = .next t ∧ t.byte sp off = b ∧
        (∀ sp' a, (sp' ≠ sp ∨ a ≠ off) → t.byte sp' a = s.byte sp' a) ∧
        t = { s with script := rest, cb := t.cb, pm := t.pm, om := t.om }) ∧
    (s.script = .rb sp off :: rest →
      step s = .next { s with script := rest, replies := (s.byte sp off).toNat :: s.replies })

/-- 70_reset_and_hazards.md R120, R121: reset at any time puts `STATUS`, `LEN`, `PLEN`, `OLEN` at 0; `CUR` and `OPL` are
unspecified, and the model's own counter of resets goes up by 1 (notes/assumptions/5.md). It writes no memory, but that
an `EMBED` about to write a quad may have written its first `drawn` bytes, at most 4, and no other byte
(notes/assumptions/14.md). That a reset keeps the memories is DEDUCED (notes/assumptions/24.md). -/
def Obligations.ResetAtAnyTime : Prop :=
  ∀ (s : State) (drawn : Nat) (rest : List HostAct), s.script = .reset drawn :: rest →
    ∃ t, step s = .next t ∧
      t = { s with
        script := rest, status := ⟨false, false, false, false⟩, len := 0, plen := 0, olen := 0,
        cur := t.cur, opl := t.opl, cb := t.cb, resets := s.resets + 1 } ∧
      (s.status.busy = false ∨ s.opl = 1 → t.cb = s.cb) ∧
      (embedWriting s = false → t.cb = s.cb) ∧
      (embedWriting s = true → ∀ a, t.byte .cb a =
        if s.cur ≤ a ∧ a < s.cur + min drawn 4 then
          packByte (s.unit (s.cur / 4)) (a - s.cur) (s.byte .cb a)
        else s.byte .cb a)

/-- 30_encoding.md R56, `WAIT`: it is over when `DONE = 1`, and until then it stays and the engine takes its turns.
The engine's turn for each poll is notes/assumptions/18.md. -/
def Obligations.WaitPollsUntilDone : Prop :=
  ∀ (s : State) (rest : List HostAct), s.script = .wait :: rest →
    (s.status.done = true → step s = .next { s with script := rest }) ∧
    (s.status.done = false → ∀ t, step s = .next t → t.script = s.script)

/-! ## The whole machine -/

/-- 10_state.md R20: `STATUS` changes in two places only, accept and complete (and at reset, R27): any other step
leaves it. A called command is both at once. (notes/assumptions/8.md.) -/
def Obligations.StatusChangesOnlyAtAcceptAndComplete : Prop :=
  ∀ s t : State, step s = .next t →
    t.status = s.status ∨
    (s.status.busy = false ∧ t.status.word = 0b0001#4 ∧ ∃ w rest, s.script = .wr 0 w :: rest) ∨
    (s.status.busy = true ∧ t.status.busy = false ∧ t.status.done = true) ∨
    (s.status.busy = false ∧ t.status.done = true ∧ ∃ w rest, s.script = .call w :: rest) ∨
    (t.status.word = 0b0000#4 ∧ ∃ drawn rest, s.script = .reset drawn :: rest)

/-- 10_state.md R26 calls `CB_BYTES` and `LW` parameters, not state: no step changes them. -/
def Obligations.ConfigurationNeverChanges : Prop :=
  ∀ s t : State, step s = .next t → t.cfg = s.cfg

/-- 10_state.md R27: what the spec gives for reset, in every configuration, and what its last paragraph derives of the
first commands. (The memories' bytes are unspecified there; that nothing is listed is how the model says so. `CUR` and
`OPL`, DESIGN CHOICE 0, are left out on purpose.) -/
def Obligations.ResetLeavesTheSpecsValues : Prop :=
  ∀ c : Config, let s := State.resetWith c
    s.status.word = 0b0000#4 ∧ s.len = 0 ∧ s.plen = 0 ∧ s.olen = 0 ∧ s.cfg = c ∧
    s.cb = [] ∧ s.pm = [] ∧ s.om = [] ∧
    (∃ t, exec .embed s = .next t ∧ t.status.word = 0b0010#4 ∧ t.cb = [] ∧ t.pm = [] ∧ t.om = []) ∧
    (∃ t, exec .extract s = .next t ∧ t.status.word = 0b0110#4 ∧ t.olen = 0 ∧ t.cb = [] ∧ t.pm = [] ∧ t.om = [])

/-- 10_state.md R28 and the bounds of 41_embed.md R76, 42_extract.md R86, which the spec derives: the invariant holds
after reset, in every configuration that 00_scope.md R6 allows. -/
def Obligations.ResetMeetsTheInvariant : Prop :=
  ∀ c : Config, c.wf → (State.resetWith c).Inv

/-- 10_state.md R28 and the bounds of 41_embed.md R76, 42_extract.md R86, which the spec derives: every step keeps the
invariant. -/
def Obligations.EveryStepKeepsTheInvariant : Prop :=
  ∀ s t : State, s.Inv → step s = .next t → t.Inv

/-- 60_exceptions.md R104, 41_embed.md R76, 42_extract.md R86: no access is out of range: where the invariant holds no
step faults, and the engine has a step to take. -/
def Obligations.NoAccessIsOutOfRange : Prop :=
  ∀ s : State, s.Inv → (∀ f, step s ≠ .fault f) ∧ (s.script = [] → ∃ t, step s = .next t)

/-- 30_encoding.md R54: where the invariant holds, `STATUS` reads as one of five values. -/
def Obligations.StatusReadsAsOneOfFiveValues : Prop :=
  ∀ s : State, s.Inv → s.status.word ∈ [0b0000#4, 0b0001#4, 0b0010#4, 0b0110#4, 0b1010#4]
end

