-- ==== Sys2Proof/Laws/State.lean ====
section
/-! SUPPORT. One lemma per field per update of State, so that no proof unfolds a record update. -/

namespace Sys2Proof.Machine

open Sys2Proof

section
variable (s : State) (sp : Space) (m : Memory) (a : Nat) (v : Byte) (op : BitVec 1) (ok : Bool) (c : Cause)

@[simp] theorem State.setMem_cfg : (s.setMem sp m).cfg = s.cfg := by cases sp <;> rfl
@[simp] theorem State.setMem_len : (s.setMem sp m).len = s.len := by cases sp <;> rfl
@[simp] theorem State.setMem_plen : (s.setMem sp m).plen = s.plen := by cases sp <;> rfl
@[simp] theorem State.setMem_olen : (s.setMem sp m).olen = s.olen := by cases sp <;> rfl
@[simp] theorem State.setMem_status : (s.setMem sp m).status = s.status := by cases sp <;> rfl
@[simp] theorem State.setMem_cur : (s.setMem sp m).cur = s.cur := by cases sp <;> rfl
@[simp] theorem State.setMem_opl : (s.setMem sp m).opl = s.opl := by cases sp <;> rfl
@[simp] theorem State.setMem_script : (s.setMem sp m).script = s.script := by cases sp <;> rfl
@[simp] theorem State.setMem_replies : (s.setMem sp m).replies = s.replies := by cases sp <;> rfl
@[simp] theorem State.setMem_resets : (s.setMem sp m).resets = s.resets := by cases sp <;> rfl
@[simp] theorem State.setMem_mem_same : (s.setMem sp m).mem sp = m := by cases sp <;> rfl
theorem State.setMem_mem_other {sp' : Space} (h : sp' ≠ sp) : (s.setMem sp m).mem sp' = s.mem sp' := by
  cases sp <;> cases sp' <;> first | rfl | exact absurd rfl h

@[simp] theorem State.setByte_cfg : (s.setByte sp a v).cfg = s.cfg := State.setMem_cfg ..
@[simp] theorem State.setByte_len : (s.setByte sp a v).len = s.len := State.setMem_len ..
@[simp] theorem State.setByte_plen : (s.setByte sp a v).plen = s.plen := State.setMem_plen ..
@[simp] theorem State.setByte_olen : (s.setByte sp a v).olen = s.olen := State.setMem_olen ..
@[simp] theorem State.setByte_status : (s.setByte sp a v).status = s.status := State.setMem_status ..
@[simp] theorem State.setByte_cur : (s.setByte sp a v).cur = s.cur := State.setMem_cur ..
@[simp] theorem State.setByte_opl : (s.setByte sp a v).opl = s.opl := State.setMem_opl ..
@[simp] theorem State.setByte_script : (s.setByte sp a v).script = s.script := State.setMem_script ..
@[simp] theorem State.setByte_replies : (s.setByte sp a v).replies = s.replies := State.setMem_replies ..
@[simp] theorem State.setByte_resets : (s.setByte sp a v).resets = s.resets := State.setMem_resets ..

@[simp] theorem accept_cfg : (accept op s).cfg = s.cfg := rfl
@[simp] theorem accept_len : (accept op s).len = s.len := rfl
@[simp] theorem accept_plen : (accept op s).plen = s.plen := rfl
@[simp] theorem accept_olen : (accept op s).olen = (if op = 1 then 0 else s.olen) := rfl
@[simp] theorem accept_status : (accept op s).status = { busy := true, done := false, ok := false, fault := false } := rfl
@[simp] theorem accept_cur : (accept op s).cur = 0 := rfl
@[simp] theorem accept_opl : (accept op s).opl = op := rfl
@[simp] theorem accept_cb : (accept op s).cb = s.cb := rfl
@[simp] theorem accept_pm : (accept op s).pm = s.pm := rfl
@[simp] theorem accept_om : (accept op s).om = s.om := rfl
@[simp] theorem accept_script : (accept op s).script = s.script := rfl
@[simp] theorem accept_replies : (accept op s).replies = s.replies := rfl
@[simp] theorem accept_resets : (accept op s).resets = s.resets := rfl
@[simp] theorem accept_mem : (accept op s).mem sp = s.mem sp := by cases sp <;> rfl

@[simp] theorem complete_cfg : (complete ok s).cfg = s.cfg := rfl
@[simp] theorem complete_len : (complete ok s).len = s.len := rfl
@[simp] theorem complete_plen : (complete ok s).plen = s.plen := rfl
@[simp] theorem complete_olen : (complete ok s).olen = s.olen := rfl
@[simp] theorem complete_status : (complete ok s).status = { s.status with busy := false, done := true, ok := ok } := rfl
@[simp] theorem complete_cur : (complete ok s).cur = s.cur := rfl
@[simp] theorem complete_opl : (complete ok s).opl = s.opl := rfl
@[simp] theorem complete_cb : (complete ok s).cb = s.cb := rfl
@[simp] theorem complete_pm : (complete ok s).pm = s.pm := rfl
@[simp] theorem complete_om : (complete ok s).om = s.om := rfl
@[simp] theorem complete_script : (complete ok s).script = s.script := rfl
@[simp] theorem complete_replies : (complete ok s).replies = s.replies := rfl
@[simp] theorem complete_resets : (complete ok s).resets = s.resets := rfl
@[simp] theorem complete_mem : (complete ok s).mem sp = s.mem sp := by cases sp <;> rfl

@[simp] theorem raiseCause_cfg : (raiseCause c s).cfg = s.cfg := rfl
@[simp] theorem raiseCause_len : (raiseCause c s).len = s.len := rfl
@[simp] theorem raiseCause_plen : (raiseCause c s).plen = s.plen := rfl
@[simp] theorem raiseCause_olen : (raiseCause c s).olen = s.olen := rfl
@[simp] theorem raiseCause_status :
    (raiseCause c s).status = { s.status.marked c with busy := false, done := true, ok := false } := rfl
@[simp] theorem raiseCause_cur : (raiseCause c s).cur = s.cur := rfl
@[simp] theorem raiseCause_opl : (raiseCause c s).opl = s.opl := rfl
@[simp] theorem raiseCause_cb : (raiseCause c s).cb = s.cb := rfl
@[simp] theorem raiseCause_pm : (raiseCause c s).pm = s.pm := rfl
@[simp] theorem raiseCause_om : (raiseCause c s).om = s.om := rfl
@[simp] theorem raiseCause_script : (raiseCause c s).script = s.script := rfl
@[simp] theorem raiseCause_replies : (raiseCause c s).replies = s.replies := rfl
@[simp] theorem raiseCause_resets : (raiseCause c s).resets = s.resets := rfl
@[simp] theorem raiseCause_mem : (raiseCause c s).mem sp = s.mem sp := by cases sp <;> rfl

/-- A report on an accepted command leaves `STATUS = 0b1010` or `0b0010` (60_exceptions.md R100). -/
theorem raiseCause_accept_status :
    (raiseCause c (accept op s)).status =
      { busy := false, done := true, ok := false, fault := decide (c = .badLength) } := by
  cases c <;> rfl

end

@[simp] theorem andThen_next (s : State) (f : State → Host.Outcome State Fault Refusal) :
    andThen (.next s) f = f s := rfl

/-- Sequencing is associative. -/
theorem andThen_assoc (o : Host.Outcome State Fault Refusal) (f g : State → Host.Outcome State Fault Refusal) :
    andThen (andThen o f) g = andThen o fun s => andThen (f s) g := by
  cases o <;> rfl

/-- A sequence answers a next state only through a next state of its first part. -/
theorem andThen_eq_next {o : Host.Outcome State Fault Refusal} {f : State → Host.Outcome State Fault Refusal}
    {t : State} (h : andThen o f = .next t) : ∃ s, o = .next s ∧ f s = .next t := by
  cases o with
  | next s => exact ⟨s, rfl, h⟩
  | fault r => cases h
  | refused r => cases h

end Sys2Proof.Machine
end

