-- ==== Sys2Proof/Laws/Memory.lean ====
section
/-! SUPPORT. The memory operations: read after write, and the canonical form is kept. -/

namespace Sys2Proof.Machine

open Sys2Proof

/-- A read of the offset just written gives the byte written. -/
@[simp] theorem Memory.read?_write_same (m : Memory) (a : Nat) (v : Byte) :
    (m.write a v).read? a = some v := by
  induction m with
  | nil => simp [Memory.write, Memory.read?]
  | cons x m ih =>
    obtain ⟨b, w⟩ := x
    simp only [Memory.write]
    split
    · simp [Memory.read?]
    · split
      · simp [Memory.read?]
      · rename_i _ h
        simp [Memory.read?, h, ih]

/-- A write leaves every other offset alone. -/
theorem Memory.read?_write_other (m : Memory) {a a' : Nat} (v : Byte) (h : a' ≠ a) :
    (m.write a v).read? a' = m.read? a' := by
  induction m with
  | nil => simp [Memory.write, Memory.read?, h]
  | cons x m ih =>
    obtain ⟨b, w⟩ := x
    simp only [Memory.write]
    split
    · simp [Memory.read?, h]
    · split
      · rename_i _ e
        subst e
        simp [Memory.read?, h]
      · simp only [Memory.read?, ih]

/-- The offsets listed after a write: those before, and the one written. -/
theorem Memory.mem_write {m : Memory} {a : Nat} {v : Byte} {x : Host.Cell} (hx : x ∈ m.write a v) :
    x ∈ m ∨ x.1 = a := by
  induction m with
  | nil => simp_all [Memory.write]
  | cons y m ih =>
    obtain ⟨b, w⟩ := y
    simp only [Memory.write] at hx
    split at hx
    · rcases List.mem_cons.mp hx with rfl | hx
      · exact .inr rfl
      · exact .inl hx
    · split at hx
      · rcases List.mem_cons.mp hx with rfl | hx
        · exact .inr rfl
        · exact .inl (List.mem_cons_of_mem _ hx)
      · rcases List.mem_cons.mp hx with rfl | hx
        · exact .inl (by simp)
        · exact (ih hx).imp (List.mem_cons_of_mem _) id

/-- Every memory operation that changes a memory is a `write`, and a write keeps the canonical form. -/
theorem Memory.wf_write {m : Memory} (h : m.wf) (a : Nat) (v : Byte) : (m.write a v).wf := by
  induction m with
  | nil => simp [Memory.write, Memory.wf]
  | cons x m ih =>
    obtain ⟨b, w⟩ := x
    obtain ⟨hb, hm⟩ := List.pairwise_cons.mp h
    simp only [Memory.write]
    split
    · rename_i hlt
      refine List.pairwise_cons.mpr ⟨fun y hy => ?_, h⟩
      rcases List.mem_cons.mp hy with rfl | hy
      · exact hlt
      · exact Nat.lt_trans hlt (hb y hy)
    · split
      · rename_i _ e
        subst e
        exact List.pairwise_cons.mpr ⟨hb, hm⟩
      · rename_i h1 h2
        refine List.pairwise_cons.mpr ⟨fun y hy => ?_, ih hm⟩
        rcases Memory.mem_write hy with hy | hy
        · exact hb y hy
        · show b < y.1
          omega

/-- A write inside a space stays inside it. -/
theorem Memory.within_write {m : Memory} {n a : Nat} (h : m.within n) (ha : a < n) (v : Byte) :
    (m.write a v).within n := fun x hx => by
  rcases Memory.mem_write hx with hx | hx
  · exact h x hx
  · omega

@[simp] theorem State.byte_setByte_same (s : State) (sp : Space) (a : Nat) (v : Byte) :
    (s.setByte sp a v).byte sp a = v := by
  simp [State.byte, State.setByte]

/-- Writing a byte of one space leaves every byte of every other place alone. -/
theorem State.byte_setByte_other (s : State) {sp sp' : Space} {a a' : Nat} (v : Byte) (h : sp' ≠ sp ∨ a' ≠ a) :
    (s.setByte sp a v).byte sp' a' = s.byte sp' a' := by
  by_cases hs : sp' = sp
  · subst hs
    simp [State.byte, State.setByte, Memory.read?_write_other _ v (h.resolve_left (fun h => h rfl))]
  · simp [State.byte, State.setByte, State.setMem_mem_other _ _ _ hs]

/-- One byte write, said as one equation. -/
theorem State.byte_setByte (s : State) (sp sp' : Space) (a a' : Nat) (v : Byte) :
    (s.setByte sp a v).byte sp' a' = if sp' = sp ∧ a' = a then v else s.byte sp' a' := by
  split
  · rename_i h
    obtain ⟨rfl, rfl⟩ := h
    simp
  · rename_i h
    exact State.byte_setByte_other s v (by tauto)

/-- A byte read depends on the memory of its space alone. -/
theorem State.byte_congr {s t : State} {sp : Space} (h : t.mem sp = s.mem sp) (a : Nat) :
    t.byte sp a = s.byte sp a := by
  simp [State.byte, h]

@[simp] theorem accept_byte (op : BitVec 1) (s : State) (sp : Space) (a : Nat) :
    (accept op s).byte sp a = s.byte sp a := State.byte_congr (by simp) a

@[simp] theorem complete_byte (ok : Bool) (s : State) (sp : Space) (a : Nat) :
    (complete ok s).byte sp a = s.byte sp a := State.byte_congr (by simp) a

@[simp] theorem raiseCause_byte (c : Cause) (s : State) (sp : Space) (a : Nat) :
    (raiseCause c s).byte sp a = s.byte sp a := State.byte_congr (by simp) a

/-- The canonical form of every memory is kept by a byte write. -/
theorem State.mem_wf_setByte {s : State} (h : ∀ sp, (s.mem sp).wf) (sp : Space) (a : Nat) (v : Byte) (sp' : Space) :
    ((s.setByte sp a v).mem sp').wf := by
  by_cases hs : sp' = sp
  · subst hs
    simpa [State.setByte] using Memory.wf_write (h sp') a v
  · simpa [State.setByte, State.setMem_mem_other _ _ _ hs] using h sp'

/-- A byte write inside its space keeps every memory inside its space. -/
theorem State.mem_within_setByte {s : State} (h : ∀ sp, (s.mem sp).within (s.cfg.size sp)) {sp : Space} {a : Nat}
    (ha : a < s.cfg.size sp) (v : Byte) (sp' : Space) :
    ((s.setByte sp a v).mem sp').within (s.cfg.size sp') := by
  by_cases hs : sp' = sp
  · subst hs
    simpa [State.setByte] using Memory.within_write (h sp') ha v
  · simpa [State.setByte, State.setMem_mem_other _ _ _ hs] using h sp'

end Sys2Proof.Machine
end

