-- ==== Sys2Proof/Laws/Layout.lean ====
section
/-! SUPPORT. The bit-quad layout, bit by bit: what one channel byte of `pack` holds (40_quad_layout.md R61, R62). -/

namespace Sys2Proof.Machine

open Sys2Proof

/-- Bit `i` of a packed channel byte: the two low bits are the group's, the other six the old byte's. -/
theorem packByte_bit (k : Nat) (b c : Byte) {i : Nat} (hi : i < 8) :
    (packByte b k c).getLsbD i = if i < 2 then b.getLsbD (6 - 2 * k + i) else c.getLsbD i := by
  have h8 : ∀ i, i < 8 → coverMask.getLsbD i = decide (2 ≤ i) ∧ lowMask.getLsbD i = decide (i < 2) := by decide
  obtain ⟨hc, hl⟩ := h8 i hi
  simp only [packByte, group, BitVec.getLsbD_or, BitVec.getLsbD_and, BitVec.getLsbD_ushiftRight, hc, hl]
  split
  · rename_i h
    simp [h, Nat.not_le.mpr h]
  · rename_i h
    simp [h, Nat.not_lt.mp h]

/-- The low two bits of a packed channel byte are the unit's group. -/
theorem packByte_low (k : Nat) (b c : Byte) : packByte b k c &&& lowMask = group b k := by
  have h8 : ∀ i, i < 8 → coverMask.getLsbD i = decide (2 ≤ i) ∧ lowMask.getLsbD i = decide (i < 2) := by decide
  apply BitVec.eq_of_getLsbD_eq
  intro i hi
  obtain ⟨-, hl⟩ := h8 i hi
  rw [BitVec.getLsbD_and, packByte_bit k b c hi, hl]
  simp only [group, BitVec.getLsbD_and, BitVec.getLsbD_ushiftRight, hl]
  split
  · rfl
  · rename_i h
    simp [Nat.not_le.mpr (Nat.not_lt.mp h)]

/-- A packed channel byte keeps its cover bits. -/
theorem packByte_cover (k : Nat) (b c : Byte) : packByte b k c &&& coverMask = c &&& coverMask := by
  have h8 : ∀ i, i < 8 → coverMask.getLsbD i = decide (2 ≤ i) ∧ lowMask.getLsbD i = decide (i < 2) := by decide
  apply BitVec.eq_of_getLsbD_eq
  intro i hi
  obtain ⟨hc, -⟩ := h8 i hi
  rw [BitVec.getLsbD_and, BitVec.getLsbD_and, packByte_bit k b c hi, hc]
  split
  · rename_i h
    simp [Nat.not_le.mpr h]
  · rfl

/-- `unpack` reads the low two bits of its bytes and nothing else. -/
theorem unpack_congr {c0 c1 c2 c3 d0 d1 d2 d3 : Byte} (h0 : c0 &&& lowMask = d0 &&& lowMask)
    (h1 : c1 &&& lowMask = d1 &&& lowMask) (h2 : c2 &&& lowMask = d2 &&& lowMask)
    (h3 : c3 &&& lowMask = d3 &&& lowMask) : unpack c0 c1 c2 c3 = unpack d0 d1 d2 d3 := by
  simp only [unpack, h0, h1, h2, h3]

/-- The four groups of a unit, put together again, are the unit. -/
theorem join_groups (b : Byte) :
    (group b 0 <<< 6) ||| (group b 1 <<< 4) ||| (group b 2 <<< 2) ||| group b 3 = b := by
  revert b
  decide

end Sys2Proof.Machine
end

