-- ==== Sys2Proof/Laws/Embed.lean ====
section
/-! SUPPORT. What the parts of `EMBED` do, once for each (41_embed.md R70 to R77). -/

namespace Sys2Proof.Machine

open Sys2Proof

/-- Byte writes of a quad change `CB` and nothing else. -/
theorem embedBytes_form (b : Byte) (n : Nat) (s : State) :
    embedBytes b n s = { s with cb := (embedBytes b n s).cb } := by
  induction n with
  | zero => rfl
  | succ n ih =>
    simp only [embedBytes, embedByte]
    rw [ih]
    rfl

/-- Every byte after the first `n` byte writes of the quad at `CUR`. -/
theorem embedBytes_byte (b : Byte) (n : Nat) (s : State) (sp : Space) (a : Nat) :
    (embedBytes b n s).byte sp a =
      if sp = .cb ∧ s.cur ≤ a ∧ a < s.cur + n then packByte b (a - s.cur) (s.byte .cb a) else s.byte sp a := by
  induction n generalizing sp a with
  | zero =>
    rw [if_neg (by omega)]
    rfl
  | succ n ih =>
    have hcur : (embedBytes b n s).cur = s.cur := by rw [embedBytes_form]
    simp only [embedBytes, embedByte, State.byte_setByte, hcur, ih]
    by_cases h : sp = .cb ∧ a = s.cur + n
    · obtain ⟨rfl, rfl⟩ := h
      rw [if_pos ⟨rfl, rfl⟩, if_neg (by omega), if_pos ⟨rfl, by omega, by omega⟩]
      congr 1
      omega
    · rw [if_neg h]
      by_cases h' : sp = .cb ∧ s.cur ≤ a ∧ a < s.cur + n
      · rw [if_pos h', if_pos ⟨h'.1, h'.2.1, by omega⟩]
      · rw [if_neg h', if_neg]
        rintro ⟨rfl, h1, h2⟩
        exact h' ⟨rfl, h1, by have : a ≠ s.cur + n := fun e => h ⟨rfl, e⟩; omega⟩

/-- A quad step changes `CB` and `CUR` and nothing else (41_embed.md R73). -/
theorem embedQuad_form (s : State) : embedQuad s = { s with cb := (embedQuad s).cb, cur := s.cur + 4 } := by
  unfold embedQuad
  rw [embedBytes_form]

/-- Every byte after a quad step (41_embed.md R73). -/
theorem embedQuad_byte (s : State) (sp : Space) (a : Nat) :
    (embedQuad s).byte sp a =
      if sp = .cb ∧ s.cur ≤ a ∧ a < s.cur + 4 then packByte (s.unit (s.cur / 4)) (a - s.cur) (s.byte .cb a)
      else s.byte sp a := by
  rw [← embedBytes_byte]
  exact State.byte_congr (by cases sp <;> rfl) a

/-- A quad step leaves every unit as it was. -/
theorem embedQuad_unit (s : State) (i : Nat) : (embedQuad s).unit i = s.unit i := by
  have h : (embedQuad s).byte .pm i = s.byte .pm i := by rw [embedQuad_byte, if_neg (by simp)]
  have hp : (embedQuad s).plen = s.plen := by rw [embedQuad_form]
  simp [State.unit, h, hp]

/-- `n` quad steps change `CB` and `CUR` and nothing else. -/
theorem embedQuads_form (n : Nat) (s : State) :
    embedQuad^[n] s = { s with cb := (embedQuad^[n] s).cb, cur := s.cur + 4 * n } := by
  induction n generalizing s with
  | zero => rfl
  | succ n ih =>
    rw [Function.iterate_succ_apply, ih, embedQuad_form]
    simp only [State.mk.injEq, true_and, and_true]
    omega

/-- Every byte after `n` quad steps from a multiple of 4: the `EMBED` map of 41_embed.md R78 on those quads. -/
theorem embedQuads_byte (n : Nat) (s : State) (h4 : s.cur % 4 = 0) (sp : Space) (a : Nat) :
    (embedQuad^[n] s).byte sp a =
      if sp = .cb ∧ s.cur ≤ a ∧ a < s.cur + 4 * n then packByte (s.unit (a / 4)) (a % 4) (s.byte .cb a)
      else s.byte sp a := by
  induction n generalizing s with
  | zero =>
    rw [if_neg (by omega)]
    rfl
  | succ n ih =>
    have hcur : (embedQuad s).cur = s.cur + 4 := by rw [embedQuad_form]
    rw [Function.iterate_succ_apply, ih _ (by omega), hcur]
    simp only [embedQuad_unit, embedQuad_byte]
    by_cases h : sp = .cb ∧ s.cur ≤ a ∧ a < s.cur + 4
    · obtain ⟨rfl, h1, h2⟩ := h
      rw [if_neg (by omega), if_pos ⟨rfl, h1, h2⟩, if_pos ⟨rfl, h1, by omega⟩]
      congr 2 <;> omega
    · by_cases h' : sp = .cb ∧ s.cur + 4 ≤ a ∧ a < s.cur + 4 + 4 * n
      · obtain ⟨rfl, h1, h2⟩ := h'
        rw [if_pos ⟨rfl, h1, h2⟩, if_neg (by omega), if_pos ⟨rfl, by omega, by omega⟩]
      · rw [if_neg h', if_neg h, if_neg]
        rintro ⟨rfl, h1, h2⟩
        have : ¬ a < s.cur + 4 := fun h3 => h ⟨rfl, h1, h3⟩
        exact h' ⟨rfl, by omega, by omega⟩

/-- The checks of `EMBED` find no cause exactly when the buffer is legal and the payload fits (41_embed.md R71, R72). -/
theorem embedCause_eq_none (s : State) :
    embedCause s = none ↔ s.len ≤ s.cfg.cbBytes ∧ s.plen < s.quads := by
  unfold embedCause
  split
  · simp; omega
  · split <;> simp <;> omega

/-- After the checks, a quad step at a unit that is left touches no offset outside a memory (41_embed.md R76). -/
theorem embedStep_in_range {s : State} (hl : s.len ≤ s.cfg.cbBytes) (hq : s.plen < s.quads)
    (h4 : s.cur % 4 = 0) (hc : s.cur / 4 ≤ s.plen) : embedStep s = .next (embedQuad s) := by
  have : embedFault? s = none := by
    simp only [State.quads] at hq
    have hp : s.cfg.size .pm = s.cfg.cbBytes / 4 := rfl
    have hb : s.cfg.size .cb = s.cfg.cbBytes := rfl
    rw [embedFault?, if_neg (by omega), if_neg (by omega)]
  simp [embedStep, this]

/-- The loop E3 after the checks: one quad step for each unit left, whatever passes beyond those are allowed
(41_embed.md R73, R76). -/
theorem embedLoop_spec {s : State} (n : Nat) (hl : s.len ≤ s.cfg.cbBytes) (hq : s.plen < s.quads)
    (h4 : s.cur % 4 = 0) (hn : s.cur / 4 + n = s.plen + 1) :
    embedLoop n s = .next (embedQuad^[n] s) := by
  induction n generalizing s with
  | zero => rfl
  | succ n ih =>
    rw [embedLoop, if_pos (by omega), embedStep_in_range hl hq h4 (by omega), andThen_next,
      Function.iterate_succ_apply]
    have hf := embedQuad_form s
    have e1 : (embedQuad s).len = s.len := by rw [hf]
    have e2 : (embedQuad s).plen = s.plen := by rw [hf]
    have e3 : (embedQuad s).cfg = s.cfg := by rw [hf]
    have e4 : (embedQuad s).cur = s.cur + 4 := by rw [hf]
    exact ih (by rw [e1, e3]; exact hl) (by rw [State.quads, e1, e2]; exact hq) (by omega) (by omega)

end Sys2Proof.Machine
end

