-- ==== Sys2Proof/Laws/Extract.lean ====
section
/-! SUPPORT. What the parts of `EXTRACT` do, once for each (42_extract.md R80 to R87). -/

namespace Sys2Proof.Machine

open Sys2Proof

/-- A quad's byte depends on `CB` alone. -/
theorem State.quadAt_congr {s t : State} (h : t.cb = s.cb) (a : Nat) : t.quadAt a = s.quadAt a := by
  simp only [State.quadAt, State.byte, State.mem, h]

/-- A terminator quad moves `CUR` and changes nothing else (42_extract.md R83). -/
theorem extractQuad_stop {s : State} (h : s.quadAt s.cur = terminator) :
    extractQuad s = { s with cur := s.cur + 4 } := by
  rw [extractQuad, if_pos h]

/-- Any other quad appends its byte (42_extract.md R83). -/
theorem extractQuad_append {s : State} (h : s.quadAt s.cur ≠ terminator) :
    extractQuad s =
      { s with om := s.om.write s.olen (s.quadAt s.cur), cur := s.cur + 4, olen := s.olen + 1 } := by
  rw [extractQuad, if_neg h]
  rfl

/-- Every byte after a quad step: the quad's byte at `OLEN` of `OM` unless it is the terminator (42_extract.md R83). -/
theorem extractQuad_byte (s : State) (sp : Space) (a : Nat) :
    (extractQuad s).byte sp a =
      if s.quadAt s.cur ≠ terminator ∧ sp = .om ∧ a = s.olen then s.quadAt s.cur else s.byte sp a := by
  by_cases hz : s.quadAt s.cur = terminator
  · rw [extractQuad_stop hz, if_neg (fun h => h.1 hz)]
    exact State.byte_congr (by cases sp <;> rfl) a
  · rw [extractQuad, if_neg hz]
    rw [State.byte_congr (s := s.setByte .om s.olen (s.quadAt s.cur)) (by cases sp <;> rfl), State.byte_setByte]
    simp only [ne_eq, hz, not_false_eq_true, true_and]

/-- A quad step of a legal buffer touches no offset outside a memory (42_extract.md R86). -/
theorem extractStep_in_range {s : State} (hl : s.len ≤ s.cfg.cbBytes) (hc : s.cur + 4 ≤ s.len)
    (ho : 4 * s.olen ≤ s.cur) : extractStep s = .next (extractQuad s) := by
  have : extractFault? s = none := by
    have hp : s.cfg.size .om = s.cfg.cbBytes / 4 := rfl
    have hb : s.cfg.size .cb = s.cfg.cbBytes := rfl
    rw [extractFault?, if_neg (by omega), if_neg (by omega)]
  simp [extractStep, this]

/-- The loop X2 in closed form (42_extract.md R84), from any point at which every quad read was appended: `k` more
quads are appended, and if fewer than all are left, the next one is the terminator and is read. -/
theorem extractLoop_spec {s : State} (n : Nat) (hl : s.len ≤ s.cfg.cbBytes) (hc : s.cur = 4 * s.olen)
    (hn : s.olen + n = s.quads) :
    ∃ k ≤ n, ∃ om' : Memory,
      extractLoop n s = .next
        { s with om := om', olen := s.olen + k, cur := 4 * (s.olen + k) + if k < n then 4 else 0 } ∧
      (∀ j, s.olen ≤ j → j < s.olen + k → s.quadAt (4 * j) ≠ terminator) ∧
      (k < n → s.quadAt (4 * (s.olen + k)) = terminator) ∧
      ∀ j, om'.read? j = if s.olen ≤ j ∧ j < s.olen + k then some (s.quadAt (4 * j)) else s.om.read? j := by
  induction n generalizing s with
  | zero =>
    refine ⟨0, le_refl _, s.om, ?_, by omega, by omega, fun j => by rw [if_neg (by omega)]⟩
    simp only [extractLoop, Nat.lt_irrefl, if_false, Nat.add_zero, ← hc]
  | succ n ih =>
    have hg : s.cur + 4 ≤ s.len := by simp only [State.quads] at hn; omega
    rw [extractLoop, if_pos hg, extractStep_in_range hl hg (by omega), andThen_next]
    by_cases hz : s.quadAt s.cur = terminator
    · refine ⟨0, Nat.zero_le _, s.om, ?_, by omega, fun _ => by rw [Nat.add_zero, ← hc]; exact hz,
        fun j => by rw [if_neg (by omega)]⟩
      simp only [if_pos hz, extractQuad_stop hz, Nat.add_zero, ← hc, Nat.zero_lt_succ, if_true]
    · rw [if_neg hz]
      have he := extractQuad_append hz
      generalize extractQuad s = t at he
      have hq : ∀ a, t.quadAt a = s.quadAt a := State.quadAt_congr (by rw [he])
      have ho : t.olen = s.olen + 1 := by rw [he]
      have hom : t.om = s.om.write s.olen (s.quadAt s.cur) := by rw [he]
      have hcur : t.cur = s.cur + 4 := by rw [he]
      have hquads : t.quads = s.quads := by rw [he]; rfl
      obtain ⟨k, hk, om', h1, h2, h3, h4⟩ := ih (s := t) (by rw [he]; exact hl) (by omega) (by omega)
      simp only [hq] at h2 h3 h4
      rw [ho] at h1 h2 h3 h4
      refine ⟨k + 1, by omega, om', ?_, fun j hj hj' => ?_, fun hk' => ?_, fun j => ?_⟩
      · rw [h1, he]
        simp only [Host.Outcome.next.injEq, State.mk.injEq, true_and, and_true]
        refine ⟨by omega, ?_⟩
        by_cases hkn : k < n
        · rw [if_pos hkn, if_pos (by omega)]; omega
        · rw [if_neg hkn, if_neg (by omega)]; omega
      · by_cases e : j = s.olen
        · rw [e, ← hc]; exact hz
        · exact h2 j (by omega) (by omega)
      · rw [← h3 (by omega)]
        congr 2
        omega
      · rw [h4, hom]
        by_cases e : j = s.olen
        · subst e
          rw [if_neg (by omega), if_pos (by omega), Memory.read?_write_same, ← hc]
        · rw [Memory.read?_write_other _ _ e]
          by_cases h : s.olen + 1 ≤ j ∧ j < s.olen + 1 + k
          · rw [if_pos h, if_pos (by omega)]
          · rw [if_neg h, if_neg (by omega)]

/-- The check of `EXTRACT` finds no cause exactly when the buffer is legal (42_extract.md R81). -/
theorem extractCause_eq_none (s : State) : extractCause s = none ↔ s.len ≤ s.cfg.cbBytes := by
  unfold extractCause
  split <;> simp <;> omega

end Sys2Proof.Machine
end

