-- ==== Sys2Proof/Laws/Engine.lean ====
section
/-! SUPPORT. What a step of the engine does, once and for all (10_state.md R10). -/

namespace Sys2Proof.Machine

open Sys2Proof

/-- The operation latch holds one of the two operations (10_state.md R17). -/
theorem opl_zero_or_one (o : BitVec 1) : o = 0 ∨ o = 1 := by revert o; decide

/-- A quad step of `EXTRACT` changes `CUR`, `OLEN` and `OM` and nothing else (42_extract.md R83). -/
theorem extractQuad_form (s : State) :
    extractQuad s = { s with cur := s.cur + 4, olen := (extractQuad s).olen, om := (extractQuad s).om } := by
  by_cases hz : s.quadAt s.cur = terminator
  · rw [extractQuad_stop hz]
  · rw [extractQuad_append hz]

/-- An engine step of an `EMBED` with units left is a quad step (41_embed.md R73). -/
theorem engineStep_embed_quad {s : State} (ho : s.opl = 0) (hl : s.len ≤ s.cfg.cbBytes) (hq : s.plen < s.quads)
    (h4 : s.cur % 4 = 0) (hc : s.cur / 4 ≤ s.plen) : engineStep s = .next (embedQuad s) := by
  rw [engineStep, if_pos ho, embedTick, (embedCause_eq_none s).mpr ⟨hl, hq⟩]
  simp only [if_pos hc, embedStep_in_range hl hq h4 hc]

/-- An engine step of an `EMBED` with no unit left completes it (41_embed.md R77). -/
theorem engineStep_embed_done {s : State} (ho : s.opl = 0) (hl : s.len ≤ s.cfg.cbBytes) (hq : s.plen < s.quads)
    (hc : ¬ s.cur / 4 ≤ s.plen) : engineStep s = .next (complete true s) := by
  rw [engineStep, if_pos ho, embedTick, (embedCause_eq_none s).mpr ⟨hl, hq⟩]
  simp only [if_neg hc]

/-- An engine step of an `EMBED` that has a cause reports it (41_embed.md R71, R72). -/
theorem engineStep_embed_cause {s : State} {c} (ho : s.opl = 0) (h : embedCause s = some c) :
    engineStep s = .next (raiseCause c s) := by
  rw [engineStep, if_pos ho, embedTick, h]

/-- An engine step of an `EXTRACT` that has a cause reports it (42_extract.md R81). -/
theorem engineStep_extract_cause {s : State} {c} (ho : s.opl = 1) (h : extractCause s = some c) :
    engineStep s = .next (raiseCause c s) := by
  rw [engineStep, if_neg (by rw [ho]; decide), extractTick, h]

/-- An engine step of an `EXTRACT` that read no terminator, with the guard true, is a quad step (42_extract.md R83). -/
theorem engineStep_extract_quad {s : State} (ho : s.opl = 1) (hl : s.len ≤ s.cfg.cbBytes) (hc : s.cur = 4 * s.olen)
    (hg : s.cur + 4 ≤ s.len) :
    engineStep s = .next (extractQuad s) := by
  rw [engineStep, if_neg (by rw [ho]; decide), extractTick, (extractCause_eq_none s).mpr hl]
  have : (!extractStopped s && decide (s.cur + 4 ≤ s.len)) = true := by
    simp [extractStopped, hc]
    omega
  simp only [this, if_true, extractStep_in_range hl hg (by omega)]

/-- Otherwise it completes the `EXTRACT` (42_extract.md R88). -/
theorem engineStep_extract_done {s : State} (ho : s.opl = 1) (hl : s.len ≤ s.cfg.cbBytes)
    (hc : s.cur ≠ 4 * s.olen ∨ ¬ s.cur + 4 ≤ s.len) :
    engineStep s = .next (complete true s) := by
  rw [engineStep, if_neg (by rw [ho]; decide), extractTick, (extractCause_eq_none s).mpr hl]
  have : (!extractStopped s && decide (s.cur + 4 ≤ s.len)) = false := by
    simp [extractStopped]; intro h; rcases hc with hc | hc
    · exact absurd h hc
    · omega
  simp only [this]; rfl

/-- All an engine step can do (10_state.md R10): report a cause, one quad step of either operation, or complete. -/
theorem engineStep_cases {s t : State} (h : engineStep s = .next t) :
    (∃ c, t = raiseCause c s ∧
      ((s.opl = 0 ∧ embedCause s = some c) ∨ (s.opl = 1 ∧ extractCause s = some c))) ∨
    (s.opl = 0 ∧ embedCause s = none ∧ s.cur / 4 ≤ s.plen ∧ embedFault? s = none ∧ t = embedQuad s) ∨
    (s.opl = 1 ∧ extractCause s = none ∧ s.cur = 4 * s.olen ∧ s.cur + 4 ≤ s.len ∧
      extractFault? s = none ∧ t = extractQuad s) ∨
    (t = complete true s ∧ ((s.opl = 0 ∧ embedCause s = none) ∨ (s.opl = 1 ∧ extractCause s = none))) := by
  rcases opl_zero_or_one s.opl with ho | ho
  · rw [engineStep, if_pos ho, embedTick] at h
    cases hc : embedCause s with
    | some c => rw [hc] at h; cases h; exact .inl ⟨c, rfl, .inl ⟨ho, rfl⟩⟩
    | none =>
      rw [hc] at h; simp only at h
      split at h
      · unfold embedStep at h
        split at h
        · cases h
        · cases h; exact .inr (.inl ⟨ho, rfl, by assumption, by assumption, rfl⟩)
      · cases h; exact .inr (.inr (.inr ⟨rfl, .inl ⟨ho, rfl⟩⟩))
  · rw [engineStep, if_neg (by rw [ho]; decide), extractTick] at h
    cases hc : extractCause s with
    | some c => rw [hc] at h; cases h; exact .inl ⟨c, rfl, .inr ⟨ho, rfl⟩⟩
    | none =>
      rw [hc] at h; simp only at h
      split at h
      · rename_i hg
        simp [extractStopped] at hg
        unfold extractStep at h
        split at h
        · cases h
        · cases h; exact .inr (.inr (.inl ⟨ho, rfl, hg.1, hg.2, by assumption, rfl⟩))
      · cases h; exact .inr (.inr (.inr ⟨rfl, .inr ⟨ho, rfl⟩⟩))

/-- A turn left to the engine is a step while `BUSY = 1` and nothing otherwise (60_exceptions.md R115). -/
theorem engineTurn_cases {s t : State} (h : engineTurn s = .next t) :
    (s.status.busy = true ∧ engineStep s = .next t) ∨ (s.status.busy = false ∧ t = s) := by
  rw [engineTurn] at h
  split at h
  · exact .inl ⟨by assumption, h⟩
  · rename_i hb; cases h; exact .inr ⟨by simpa using hb, rfl⟩

end Sys2Proof.Machine
end

