-- ==== Sys2Proof/Laws/HostPort.lean ====
section
/-! SUPPORT. What a step of the machine does: the lines of a host script (30_encoding.md R55) and the engine's turns. -/

namespace Sys2Proof.Machine

open Sys2Proof

/-- With no line left a step is a turn of the engine. -/
theorem step_nil {s : State} (h : s.script = []) : step s = engineTurn s := by
  simp [step, takeTurn, h]

/-- With a line left a step is that line. -/
theorem step_cons {s : State} {a : HostAct} {rest : List HostAct} (h : s.script = a :: rest) :
    step s = hostMove a { s with script := rest } := by
  simp [step, takeTurn, h]

/-- What a reset leaves of an operation differs from the state before in `CB` alone (70_reset_and_hazards.md R121). -/
theorem brokenOff_form (k : Nat) (s : State) : brokenOff k s = { s with cb := (brokenOff k s).cb } := by
  unfold brokenOff; split
  · rw [embedBytes_form]
  · rfl

/-- Every byte of what a reset leaves: the first `drawn` bytes of the quad an `EMBED` was about to write are new
(70_reset_and_hazards.md R121). -/
theorem brokenOff_byte (drawn : Nat) (s : State) (sp : Space) (a : Nat) :
    (brokenOff drawn s).byte sp a =
      if embedWriting s = true ∧ sp = .cb ∧ s.cur ≤ a ∧ a < s.cur + min drawn 4 then
        packByte (s.unit (s.cur / 4)) (a - s.cur) (s.byte sp a)
      else s.byte sp a := by
  unfold brokenOff
  split
  · rename_i h
    rw [embedBytes_byte]
    by_cases hs : sp = .cb ∧ s.cur ≤ a ∧ a < s.cur + min drawn 4
    · obtain ⟨rfl, hs⟩ := hs
      rw [if_pos ⟨rfl, hs⟩, if_pos ⟨h, rfl, hs⟩]
    · rw [if_neg hs, if_neg (fun h' => hs h'.2)]
  · rename_i h
    rw [if_neg (fun h' => h h'.1)]

/-- With no operation in progress nothing is broken off (70_reset_and_hazards.md R120). -/
theorem brokenOff_idle (k : Nat) {s : State} (hb : s.status.busy = false) : brokenOff k s = s := by
  unfold brokenOff; rw [if_neg (by simp [embedWriting, hb])]

/-- All a step that answers a next state can be: a turn of the engine, or a line that the interface has and the contract
allows (70_reset_and_hazards.md R125 to R127). -/
theorem step_cases {s t : State} (h : step s = .next t) :
    (s.script = [] ∧ engineTurn s = .next t) ∨
    ∃ a rest, s.script = a :: rest ∧ a.wf s.cfg = true ∧ contractAllows s a = true ∧
      perform a { s with script := rest } = .next t := by
  cases hs : s.script with
  | nil => exact .inl ⟨rfl, step_nil hs ▸ h⟩
  | cons a rest =>
    rw [step_cons hs, hostMove] at h
    split at h
    · split at h
      · exact .inr ⟨a, rest, rfl, by assumption, by cases a <;> assumption, h⟩
      · cases h
    · cases h

/-- All a line that answers a next state can do (10_state.md R11, 30_encoding.md R55, R56). -/
theorem perform_cases {a : HostAct} {s t : State} (h : perform a s = .next t) :
    (∃ w i, a = .wr 0 w ∧ decode w = .ok i ∧ t = accept (encode i) s) ∨
    (∃ v, a = .wr 2 v ∧ t = { s with len := v }) ∨
    (∃ v, a = .wr 3 v ∧ t = { s with plen := v }) ∨
    (∃ reg v, a = .rd reg ∧ t = { s with replies := v :: s.replies }) ∨
    (∃ sp off b, a = .wb sp off b ∧ t = s.setByte sp off b) ∨
    (∃ sp off, a = .rb sp off ∧ t = { s with replies := (s.byte sp off).toNat :: s.replies }) ∨
    (∃ drawn, a = .reset drawn ∧ t = resetEvent drawn s) ∨
    (∃ w i, a = .call w ∧ decode w = .ok i ∧ exec i s = .next t) ∨
    (a = .wait ∧ s.status.done = true ∧ t = s) ∨
    (a = .wait ∧ s.status.done = false ∧ ∃ u, engineTurn s = .next u ∧ t = { u with script := .wait :: u.script }) ∨
    (a = .tick ∧ engineTurn s = .next t) := by
  cases a with
  | wr reg value =>
    simp only [perform, writeReg, startCommand] at h
    split at h
    · subst reg
      split at h
      · cases h; exact .inl ⟨_, _, rfl, by assumption, rfl⟩
      · cases h
    · split at h
      · subst reg; cases h; exact .inr (.inl ⟨_, rfl, rfl⟩)
      · split at h
        · subst reg; cases h; exact .inr (.inr (.inl ⟨_, rfl, rfl⟩))
        · cases h
  | rd reg =>
    refine .inr (.inr (.inr (.inl ⟨reg, ?_⟩)))
    simp only [perform, readReg] at h
    repeat' split at h
    all_goals cases h
    all_goals exact ⟨_, rfl, rfl⟩
  | wb sp off b => cases h; exact .inr (.inr (.inr (.inr (.inl ⟨_, _, _, rfl, rfl⟩))))
  | rb sp off => cases h; exact .inr (.inr (.inr (.inr (.inr (.inl ⟨_, _, rfl, rfl⟩)))))
  | reset drawn => cases h; exact .inr (.inr (.inr (.inr (.inr (.inr (.inl ⟨_, rfl, rfl⟩))))))
  | call w =>
    simp only [perform, callCommand] at h
    split at h
    · exact .inr (.inr (.inr (.inr (.inr (.inr (.inr (.inl ⟨_, _, rfl, by assumption, h⟩)))))))
    · cases h
  | wait =>
    simp only [perform, waitTurn] at h
    split at h
    · cases h; exact .inr (.inr (.inr (.inr (.inr (.inr (.inr (.inr (.inl ⟨rfl, by assumption, rfl⟩))))))))
    · rename_i hd
      obtain ⟨u, hu, e⟩ := andThen_eq_next h
      cases e
      exact .inr (.inr (.inr (.inr (.inr (.inr (.inr (.inr (.inr (.inl ⟨rfl, by simpa using hd, u, hu, rfl⟩)))))))))
  | tick => exact .inr (.inr (.inr (.inr (.inr (.inr (.inr (.inr (.inr (.inr ⟨rfl, h⟩)))))))))

end Sys2Proof.Machine
end

