-- ==== Sys2Proof/Laws/PerInstr.lean ====
section
/-! SUPPORT. Per-command lemmas, one for each constructor of Instr. -/

namespace Sys2Proof.Laws.CommandWord

open Sys2Proof

/-- The command is well formed and its word is the one the row of spec/opcode_table.json gives: `match` under the mask
0x1, in a word of one bit (30_encoding.md R50, R51). -/
def Statement (i : Instr) : Prop :=
  i.wf = true ∧
  (encode i).toNat &&& 0x1 = (match i with | .embed => 0x0 | .extract => 0x1) ∧
  decodeTableWord 1 (encode i).toNat = some i

/-- Row `EMBED`. -/
theorem embed : Statement .embed := ⟨rfl, rfl, rfl⟩

/-- Row `EXTRACT`. -/
theorem extract : Statement .extract := ⟨rfl, rfl, rfl⟩

end Sys2Proof.Laws.CommandWord
end

