-- ==== Sys2Proof/Tests/Slice0.lean ====
section
/-! SUPPORT. Tests: the spec's own vectors (95_test_vectors.md), and for each statement with hypotheses a named state that
meets them. -/

namespace Sys2Proof.Tests

open Sys2Proof Sys2Proof.Machine

/-! ## Helpers -/

/-- A memory that holds these bytes from offset `a` on. -/
def cells : Nat → List Nat → Memory
  | _, [] => []
  | a, b :: bs => (a, BitVec.ofNat 8 b) :: cells (a + 1) bs

/-- A codec with `CB_BYTES = n`, `LW = 5`, these operands and memories, idle, as after reset otherwise. -/
def codec (n len plen : Nat) (cb pm : List Nat) : State :=
  { State.resetWith { cbBytes := n, lw := 5 } with len := len, plen := plen, cb := cells 0 cb, pm := cells 0 pm }

/-- The next state, if the outcome is one. -/
def next? : Host.Outcome State Fault Refusal → Option State
  | .next s => some s
  | .fault _ => none
  | .refused _ => none

/-- The refusal, if the outcome is one. -/
def refusal? : Host.Outcome State Fault Refusal → Option Refusal
  | .next _ => none
  | .fault _ => none
  | .refused r => some r

/-- A field of the next state. -/
def see {α : Type} (o : Host.Outcome State Fault Refusal) (f : State → α) : Option α := (next? o).map f

theorem of_see {α : Type} {o : Host.Outcome State Fault Refusal} {f : State → α} {v : α} (h : see o f = some v) :
    ∃ t, o = .next t ∧ f t = v := by
  cases o with
  | next s => exact ⟨s, rfl, Option.some.inj h⟩
  | fault r => cases h
  | refused r => cases h

/-! ## Well-formedness: each check refuses an ill-formed term (30_encoding.md R53, R54; 20_memory.md R30; 00_scope.md R6) -/

/-- `CB_BYTES = 16`, `LW = 5`. -/
def cfg : Config := Config.programs

theorem test_wf_config : cfg.wf ∧ ¬ Config.wf { cbBytes := 32, lw := 5 } := by decide
theorem test_wf_commands : Instr.embed.wf = true ∧ Instr.extract.wf = true := by decide
theorem test_wf_write_of_status : (HostAct.wr 1 0).wf cfg = false := by decide
theorem test_wf_write_of_olen : (HostAct.wr 4 0).wf cfg = false := by decide
theorem test_wf_write_of_no_register : (HostAct.wr 5 0).wf cfg = false := by decide
theorem test_wf_value_too_wide :
    (HostAct.wr 2 31).wf cfg = true ∧ (HostAct.wr 2 32).wf cfg = false ∧ (HostAct.wr 3 32).wf cfg = false := by decide
theorem test_wf_read_of_cmd : (HostAct.rd 0).wf cfg = false := by decide
theorem test_wf_read_of_no_register : (HostAct.rd 4).wf cfg = true ∧ (HostAct.rd 5).wf cfg = false := by decide
theorem test_wf_write_of_om : (HostAct.wb .om 0 0).wf cfg = false := by decide
theorem test_wf_write_outside :
    (HostAct.wb .cb 15 0).wf cfg = true ∧ (HostAct.wb .cb 16 0).wf cfg = false ∧ (HostAct.wb .pm 4 0).wf cfg = false := by
  decide
theorem test_wf_read_outside : (HostAct.rb .om 3).wf cfg = true ∧ (HostAct.rb .om 4).wf cfg = false := by decide
theorem test_memory_wf :
    Memory.wf (cells 0 [1, 2]) ∧ ¬ Memory.wf [(1, 0), (1, 0)] ∧ ¬ Memory.wf [(1, 0), (0, 0)] := by decide

/-! ## Decoding: the words of 30_encoding.md R51, bit by bit -/

theorem test_decode_embed : decode 0b0 = .ok .embed ∧ encode .embed = 0b0#1 := ⟨rfl, rfl⟩
theorem test_decode_extract : decode 0b1 = .ok .extract ∧ encode .extract = 0b1#1 := ⟨rfl, rfl⟩
theorem test_decode_rejects : decode 0b10 = .error .bitsAboveOp ∧ decode 0b11 = .error .bitsAboveOp := ⟨rfl, rfl⟩
theorem test_decode_table : decodeTableWord 8 0 = some .embed ∧ decodeTableWord 8 1 = some .extract ∧
    decodeTableWord 8 2 = none := by decide
theorem test_step_runs_embed : see (step (State.reset.withFetchWord 8 0)) (fun t => (t.status.word, t.script)) =
    see (exec .embed State.reset) fun t => (t.status.word, t.script) := by decide
theorem test_step_runs_extract : see (step (State.reset.withFetchWord 8 1)) (fun t => (t.status.word, t.opl)) =
    see (exec .extract State.reset) fun t => (t.status.word, t.opl) := by decide

/-! ## The layout: vectors PK6 to PK9 and UP5 to UP10 -/

theorem test_pack : pack 0x1B 0xA4 0x53 0xFE 0x01 = (0xA4, 0x51, 0xFE, 0x03) ∧
    pack 0x80 0x03 0x03 0x03 0x03 = (0x02, 0x00, 0x00, 0x00) ∧
    pack 0x01 0xFC 0xFC 0xFC 0xFC = (0xFC, 0xFC, 0xFC, 0xFD) ∧
    pack 0xE4 0x10 0x21 0x32 0x43 = (0x13, 0x22, 0x31, 0x40) := by decide
theorem test_unpack : unpack 0xA4 0x51 0xFE 0x03 = 0x1B ∧ unpack 0x00 0x00 0x00 0x01 = 0x01 ∧
    unpack 0x02 0x00 0x00 0x00 = 0x80 ∧ unpack 0xFC 0x04 0x08 0x10 = 0x00 := by decide

/-! ## The commands -/

/-- Vector E15: mixed cover bits, a tail that is no whole quad. -/
def e15 : State := codec 32 18 3
  [0xFF, 0x80, 0x7F, 0x01, 0xAA, 0x55, 0xC3, 0x3C, 0x10, 0x20, 0x30, 0x40, 0xDE, 0xAD, 0xBE, 0xEF, 0x12, 0x34]
  [0xE4, 0x1B, 0xFF]

/-- `CB` after E15. -/
def e15After : List Nat :=
  [0xFF, 0x82, 0x7D, 0x00, 0xA8, 0x55, 0xC2, 0x3F, 0x13, 0x23, 0x33, 0x43, 0xDC, 0xAC, 0xBC, 0xEC, 0x12, 0x34]

theorem test_embed_E15 : see (exec .embed e15) (fun t => (t.status.word, t.cb)) =
    some (0b0110#4, cells 0 e15After) := by decide

/-- E3: `LEN = 4 * PLEN`, the boundary of 90_conflicts.md C1. -/
theorem test_embed_E3 : see (exec .embed (codec 16 8 2 (List.replicate 16 0xFF) [0x48, 0x69]))
    (fun t => (t.status.word, t.cb)) = some (0b0010#4, cells 0 (List.replicate 16 0xFF)) := by decide

/-- X15: truncation at the internal zero of E16's result; `CUR = 8`. -/
theorem test_extract_X15 : see (exec .extract (codec 32 20 0
      [0xFD, 0xFC, 0xFC, 0xFD, 0xFC, 0xFC, 0xFC, 0xFC, 0xFD, 0xFC, 0xFC, 0xFE, 0xFC, 0xFC, 0xFC, 0xFC, 0xFF, 0xFF, 0xFF, 0xFF] []))
    (fun t => (t.status.word, t.olen, t.om, t.cur)) = some (0b0110#4, 1, cells 0 [0x41], 8) := by decide

/-- X8's buffer: no zero quad, two trailing bytes not read; `OLEN = 3`, `CUR = 12`. -/
def x8 : State := codec 16 14 0 [0x01, 0x02, 0x03, 0x00, 0xFF, 0xFF, 0xFF, 0xFF, 0x01, 0x01, 0x01, 0x01, 0x03, 0x03] []

theorem test_extract_X8 : see (exec .extract x8) (fun t => (t.status.word, t.olen, t.om, t.cur)) =
    some (0b0110#4, 3, cells 0 [0x6C, 0xFF, 0x55], 12) := by decide

/-- E17, X16 (`BadLength`), and E18 (both causes). -/
theorem test_bad_length :
    see (exec .embed (codec 16 17 9 [] [])) (fun t => (t.status.word, t.cb)) = some (0b1010#4, []) ∧
    see (exec .extract (codec 16 17 9 [] [])) (fun t => (t.status.word, t.olen)) = some (0b1010#4, 0) := by decide

/-! ## The handshake: H1 to H3, H8, H9 -/

theorem test_accept : see (step { e15 with script := [.wr 0 1], olen := 3 })
    (fun t => (t.status.word, t.cur, t.opl, t.olen)) = some (0b0001#4, 0, 1, 0) := by decide
theorem test_after_reset :
    see (exec .embed State.reset) (fun t => t.status.word) = some 0b0010#4 ∧
    see (exec .extract State.reset) (fun t => (t.status.word, t.olen)) = some (0b0110#4, 0) := by decide
theorem test_read_status : see (step { State.reset with status := ⟨false, true, true, false⟩, script := [.rd 1] })
    (fun t => t.replies) = some [0b0110] := by decide
theorem test_breach : refusal? (step { State.reset with status := ⟨true, false, false, false⟩, script := [.rd 4] }) =
    some .contractBreach := by decide
theorem test_no_access : refusal? (step { State.reset with script := [.wr 2 32] }) = some .noSuchAccess := by decide

/-! ## Witnesses: states and operands that meet a statement's hypotheses together, clause by clause -/

/-- The state with this script. -/
def saying (s : State) (l : List HostAct) : State := { s with script := l }

/-- E5: `LEN = 12 = 4 * (PLEN + 1)`, the least that succeeds, payload `48 69` without a zero byte. -/
def e5 : State := codec 16 12 2 (List.replicate 16 0xFF) [0x48, 0x69]

/-- Payload `41 00`: its first zero is at 1. -/
def withZero : State := codec 16 12 2 (List.replicate 16 0xFF) [0x41, 0x00]

/-- E5's `EMBED` in progress, `i` units done. -/
def embedding (i : Nat) : State := { e5 with status := ⟨true, false, false, false⟩, cur := 4 * i, opl := 0 }

/-- X8's `EXTRACT` in progress, `q` quads read, none the terminator. -/
def extracting (q : Nat) : State :=
  { x8 with status := ⟨true, false, false, false⟩, cur := 4 * q, opl := 1, olen := q }

/-- A buffer whose quad 1 is a terminator, and one that agrees with it on the low bits of quads 0 and 1 alone. -/
def stops : State := codec 16 12 0 [0x01, 0x02, 0x03, 0x00, 0xFC, 0x04, 0x08, 0x10, 0x01, 0x01, 0x01, 0x01] []
def stopsToo : State := codec 16 12 0 [0xFD, 0xFE, 0xFF, 0xFC, 0x00, 0x00, 0x00, 0x00, 0x02, 0x02, 0x02, 0x02] []

/-- X18: X6's buffer (that of X8, no zero quad) with bits 7 to 2 of every byte inverted, and other trailing bytes. -/
def x18 : State := codec 16 14 0 [0xFD, 0xFE, 0xFF, 0xFC, 0x03, 0x03, 0x03, 0x03, 0xFD, 0xFD, 0xFD, 0xFD, 0x00, 0x00] []

theorem embedding_inv : (embedding 2).Inv where
  cfg_wf := by decide
  len_fits := by decide
  plen_fits := by decide
  cur_fits := by decide
  olen_le := by decide
  status_legal := ⟨by decide, by decide, by decide⟩
  cur_aligned := by decide
  embed_at := fun _ _ => .inr (by decide)
  extract_at := fun _ h => absurd h (by decide)
  mem_wf := by intro sp; cases sp <;> decide
  mem_within := by intro sp; cases sp <;> decide

theorem extracting_inv : (extracting 2).Inv where
  cfg_wf := by decide
  len_fits := by decide
  plen_fits := by decide
  cur_fits := by decide
  olen_le := by decide
  status_legal := ⟨by decide, by decide, by decide⟩
  cur_aligned := by decide
  embed_at := fun _ h => absurd h (by decide)
  extract_at := fun _ _ => .inr (by decide)
  mem_wf := by intro sp; cases sp <;> decide
  mem_within := by intro sp; cases sp <;> decide

theorem e5_inv : e5.Inv where
  cfg_wf := by decide
  len_fits := by decide
  plen_fits := by decide
  cur_fits := by decide
  olen_le := by decide
  status_legal := ⟨by decide, by decide, by decide⟩
  cur_aligned := by decide
  embed_at := fun h => absurd h (by decide)
  extract_at := fun h => absurd h (by decide)
  mem_wf := by intro sp; cases sp <;> decide
  mem_within := by intro sp; cases sp <;> decide

/-- E5's state after completion, `STATUS` at `0b0010`, `0b0110` or `0b1010`. -/
theorem done_inv {ok fault : Bool} (h : (ok && fault) = false) :
    ({ e5 with status := ⟨false, true, ok, fault⟩ } : State).Inv where
  cfg_wf := e5_inv.cfg_wf
  len_fits := e5_inv.len_fits
  plen_fits := e5_inv.plen_fits
  cur_fits := e5_inv.cur_fits
  olen_le := e5_inv.olen_le
  status_legal := by
    cases ok <;> cases fault <;> first | exact absurd h (by decide) | exact ⟨by decide, by decide, by decide⟩
  cur_aligned := fun h => absurd h (by simp)
  embed_at := fun h => absurd h (by simp)
  extract_at := fun h => absurd h (by simp)
  mem_wf := fun sp => by have := e5_inv.mem_wf sp; cases sp <;> exact this
  mem_within := fun sp => by have := e5_inv.mem_within sp; cases sp <;> exact this

theorem witness_DecodeAndEncodeAgree : decode 0 = .ok .embed ∧ decode 1 = .ok .extract := ⟨rfl, rfl⟩

theorem witness_WordsAboveOneBitAreRejected :
    2 ≤ 2 ∧ (saying e5 [.call 2]).status.busy = false ∧ (saying e5 [.call 2]).script = .call 2 :: [] ∧
    (saying e5 [.wr 0 2]).status.busy = false ∧ (saying e5 [.wr 0 2]).script = .wr 0 2 :: [] := by decide

theorem witness_StepRunsTheDecodedCommand :
    ((saying e5 [.call 0]).script = .call 0 :: [] ∧ decode 0 = .ok .embed) ∧
    ((saying e5 [.call 1]).script = .call 1 :: [] ∧ decode 1 = .ok .extract) := ⟨⟨rfl, rfl⟩, rfl, rfl⟩

theorem witness_WriteOfCmdAcceptsTheCommand :
    ((saying e5 [.wr 0 0]).script = .wr 0 0 :: [] ∧ decode 0 = .ok .embed ∧ (saying e5 [.wr 0 0]).status.busy = false) ∧
    ((saying e5 [.wr 0 1]).script = .wr 0 1 :: [] ∧ decode 1 = .ok .extract ∧ (saying e5 [.wr 0 1]).status.busy = false) :=
  ⟨⟨rfl, rfl, rfl⟩, rfl, rfl, rfl⟩

theorem witness_PackPlacesEachBit : 0 < 4 ∧ 3 < 4 := by decide

theorem witness_PackIsTheFourNewBytes :
    (0 < 4 ∧ (0xFD : Byte) &&& 0x03 = group 0x48 0) ∧ (3 < 4 ∧ (0xFF : Byte) &&& 0x03 = group 0xFF 3) := by decide

/-- The three clauses at their boundaries: `LEN = 17`, `16`, `16` with `CB_BYTES = 16`, `PLEN = 9`, `4`, `3`. -/
theorem witness_EmbedIsTheOneStepFunction :
    ((codec 16 17 9 [] []).status.busy = false ∧ (codec 16 17 9 [] []).len > (codec 16 17 9 [] []).cfg.cbBytes) ∧
    ((codec 16 16 4 [] []).status.busy = false ∧ (codec 16 16 4 [] []).len ≤ (codec 16 16 4 [] []).cfg.cbBytes ∧
      (codec 16 16 4 [] []).len / 4 ≤ (codec 16 16 4 [] []).plen) ∧
    ((codec 16 16 3 [] []).status.busy = false ∧ (codec 16 16 3 [] []).len ≤ (codec 16 16 3 [] []).cfg.cbBytes ∧
      (codec 16 16 3 [] []).plen < (codec 16 16 3 [] []).len / 4) := by decide

theorem witness_CapacityBoundary :
    ((codec 16 16 4 [] []).status.busy = false ∧ (codec 16 16 4 [] []).len ≤ (codec 16 16 4 [] []).cfg.cbBytes ∧
      (codec 16 16 4 [] []).len = 4 * (codec 16 16 4 [] []).plen) ∧
    ((codec 16 16 3 [] []).status.busy = false ∧ (codec 16 16 3 [] []).len ≤ (codec 16 16 3 [] []).cfg.cbBytes ∧
      (codec 16 16 3 [] []).len = 4 * ((codec 16 16 3 [] []).plen + 1)) := by decide

theorem witness_EmbedKeepsUpperBits : e5.status.busy = false := rfl
theorem witness_EmbedMovesNoByteByMoreThanThree : e15.status.busy = false := rfl

theorem witness_EmbedIsIdempotent : ∃ t, exec .embed e5 = .next t ∧ t.status.ok = true := of_see (by decide)

/-- The first unit, and the last, which is the terminator. -/
theorem witness_EngineEmbedsOneQuad : ∀ i ∈ [0, 2],
    let s := saying (embedding i) [.tick];
    s.script = .tick :: [] ∧ s.status.busy = true ∧ s.opl = 0 ∧ s.len ≤ s.cfg.cbBytes ∧ s.plen < s.len / 4 ∧
      s.cur = 4 * i ∧ i ≤ s.plen := by decide

/-- `LEN = 17`; a first zero quad `z = 1` below `Q = 3`; no zero quad below `Q = 3`. -/
theorem witness_ExtractIsTheOneStepFunction :
    ((codec 16 17 0 [] []).status.busy = false ∧ (codec 16 17 0 [] []).len > (codec 16 17 0 [] []).cfg.cbBytes) ∧
    (stops.status.busy = false ∧ stops.len ≤ stops.cfg.cbBytes ∧ 1 < stops.len / 4 ∧ stops.quadAt (4 * 1) = 0x00 ∧
      ∀ q, q < 1 → stops.quadAt (4 * q) ≠ 0x00) ∧
    (x8.status.busy = false ∧ x8.len ≤ x8.cfg.cbBytes ∧ ∀ q, q < x8.len / 4 → x8.quadAt (4 * q) ≠ 0x00) := by decide

theorem witness_ExtractedBytesAreNotZero : x8.status.busy = false ∧ x8.len ≤ x8.cfg.cbBytes := by decide

theorem witness_ExtractIsIdempotent : ∃ t : State, exec .extract x8 = .next t ∧
    ∃ s' : State, s'.status.busy = false ∧ s'.cfg = t.cfg ∧ s'.len = t.len ∧ ∀ a, s'.byte .cb a = t.byte .cb a := by
  obtain ⟨t, h, hb⟩ := of_see (o := exec .extract x8) (f := fun t => t.status.busy) (v := false) (by decide)
  exact ⟨t, h, t, hb, rfl, rfl, fun _ => rfl⟩

/-- The first quad (0x6C, appended), the last (0x55, appended), and a terminator quad. -/
theorem witness_EngineExtractsOneQuad :
    (∀ q ∈ [0, 2], let s := saying (extracting q) [.tick]
      s.script = .tick :: [] ∧ s.status.busy = true ∧ s.opl = 1 ∧ s.len ≤ s.cfg.cbBytes ∧ s.cur = 4 * q ∧ s.olen = q ∧
        4 * q + 4 ≤ s.len ∧ s.quadAt (4 * q) ≠ 0x00) ∧
    (let s : State := { saying stops [.tick] with status := ⟨true, false, false, false⟩, cur := 4, opl := 1, olen := 1 };
      s.script = .tick :: [] ∧ s.status.busy = true ∧ s.opl = 1 ∧ s.len ≤ s.cfg.cbBytes ∧ s.cur = 4 * 1 ∧ s.olen = 1 ∧
        4 * 1 + 4 ≤ s.len ∧ s.quadAt (4 * 1) = 0x00) := by decide

/-- A success, an `InsufficientCapacity`, and a `BadLength` with a result of an earlier `EXTRACT` in `OLEN`. -/
theorem witness_CommandEndsInOneOfThreeWays :
    e5.status.busy = false ∧ (codec 16 8 2 [] []).status.busy = false ∧
    (let s : State := { codec 16 17 9 [] [] with olen := 3 };
      s.status.busy = false ∧ s.len > s.cfg.cbBytes) := by decide

theorem witness_InsufficientCapacityIsReported :
    let s := codec 16 8 2 [] [];
    s.status.busy = false ∧ s.len ≤ s.cfg.cbBytes ∧ s.len / 4 ≤ s.plen := by decide

theorem witness_BadLengthIsReported :
    let s := codec 16 17 1 [] [];
    s.status.busy = false ∧ s.len > s.cfg.cbBytes := by decide

/-- E18, and a next state of each command. -/
theorem witness_BadLengthIsReportedFirst :
    (let s := codec 16 17 9 [] []; s.status.busy = false ∧ s.len > s.cfg.cbBytes ∧ s.len / 4 ≤ s.plen) ∧
    (∃ t, exec .embed e5 = .next t ∧ t.status.ok = true) ∧ ∃ t, exec .extract x8 = .next t ∧ t.status.ok = true :=
  ⟨by decide, of_see (by decide), of_see (by decide)⟩

/-- An `EMBED` that succeeds, one that fails, an `EXTRACT`. -/
theorem witness_CommandWritesOnlyItsFootprint :
    (∃ t, exec .embed e5 = .next t ∧ t.status.ok = true) ∧
    (∃ t, exec .embed (codec 16 8 2 [] []) = .next t ∧ t.status.ok = false) ∧
    ∃ t, exec .extract x8 = .next t ∧ t.status.ok = true :=
  ⟨of_see (by decide), of_see (by decide), of_see (by decide)⟩

theorem witness_FailureIsClean :
    (∃ t, exec .embed (codec 16 8 2 [] []) = .next t ∧ t.status.ok = false) ∧
    (∃ t, exec .embed (codec 16 17 2 [] []) = .next t ∧ t.status.ok = false) ∧
    ∃ t, exec .extract (codec 16 17 2 [] []) = .next t ∧ t.status.ok = false :=
  ⟨of_see (by decide), of_see (by decide), of_see (by decide)⟩

/-- Two states that agree on the operands of `EMBED` and differ elsewhere, and two that agree on those of `EXTRACT`. -/
theorem witness_EffectDependsOnOperandsAlone :
    (let s₁ := e5;
      let s₂ : State := { e5 with cur := 8, opl := 1, olen := 3, cb := e5.cb.write 12 0x55 };
      s₁.status.busy = false ∧ s₂.status.busy = false ∧ s₁.cfg = s₂.cfg ∧ s₁.len = s₂.len ∧ s₁.plen = s₂.plen ∧
        (∀ i, i < s₁.plen → s₁.byte .pm i = s₂.byte .pm i) ∧
        ∀ a, a < 4 * (s₁.plen + 1) → s₁.byte .cb a = s₂.byte .cb a) ∧
    (let s₂ : State := { x8 with plen := 3, cb := x8.cb.write 12 0x55 };
      x8.status.busy = false ∧ s₂.status.busy = false ∧ x8.cfg = s₂.cfg ∧ x8.len = s₂.len ∧
        ∀ a, a < 4 * (x8.len / 4) → x8.byte .cb a = s₂.byte .cb a) := by decide

/-- A zero quad at `z = 1`; and X8 with X18, no zero quad below `Q = 3`. -/
theorem witness_ExtractIgnoresCoverBitsAndWhatFollows :
    (stops.status.busy = false ∧ stopsToo.status.busy = false ∧ stops.cfg = stopsToo.cfg ∧ stops.len = stopsToo.len ∧
    stops.len ≤ stops.cfg.cbBytes ∧ 1 < stops.len / 4 ∧ stops.quadAt (4 * 1) = 0x00 ∧
    ∀ a, a < 4 * (1 + 1) → stops.byte .cb a &&& 0x03 = stopsToo.byte .cb a &&& 0x03) ∧
    (x8.status.busy = false ∧ x18.status.busy = false ∧ x8.cfg = x18.cfg ∧ x8.len = x18.len ∧
    x8.len ≤ x8.cfg.cbBytes ∧ (∀ z, z < x8.len / 4 → x8.quadAt (4 * z) ≠ 0x00) ∧
    ∀ a, a < 4 * (x8.len / 4) → x8.byte .cb a &&& 0x03 = x18.byte .cb a &&& 0x03) := by decide

theorem witness_RoundTrip : e5.status.busy = false ∧ (∀ i, i < e5.plen → e5.byte .pm i ≠ 0x00) ∧
    4 * (e5.plen + 1) ≤ e5.len ∧ e5.len ≤ e5.cfg.cbBytes := by decide

/-- `LEN'` at both ends of its range, 12 and 16. -/
theorem witness_RoundTripWithAnotherLength : ∀ len' ∈ [12, 16],
    e5.status.busy = false ∧ (∀ i, i < e5.plen → e5.byte .pm i ≠ 0x00) ∧ 4 * (e5.plen + 1) ≤ e5.len ∧
    e5.len ≤ e5.cfg.cbBytes ∧ 4 * (e5.plen + 1) ≤ len' ∧ len' ≤ e5.cfg.cbBytes := by decide

/-- An internal zero at `z = 1`, and no zero, `z = PLEN`. -/
theorem witness_RoundTripStopsAtFirstZero :
    (withZero.status.busy = false ∧ 4 * (withZero.plen + 1) ≤ withZero.len ∧ withZero.len ≤ withZero.cfg.cbBytes ∧
      1 ≤ withZero.plen ∧ (∀ i, i < 1 → withZero.byte .pm i ≠ 0x00) ∧ (1 < withZero.plen → withZero.byte .pm 1 = 0x00)) ∧
    (e5.status.busy = false ∧ 4 * (e5.plen + 1) ≤ e5.len ∧ e5.len ≤ e5.cfg.cbBytes ∧
      2 ≤ e5.plen ∧ (∀ i, i < 2 → e5.byte .pm i ≠ 0x00) ∧ (2 < e5.plen → e5.byte .pm 2 = 0x00)) := by decide

/-- `LEN = 4`, and `LEN = 3`. -/
theorem witness_EmptyPayload :
    (let s := codec 8 4 0 [] []; s.status.busy = false ∧ s.plen = 0 ∧ s.len ≤ s.cfg.cbBytes ∧ 4 ≤ s.len) ∧
    (let s := codec 8 3 0 [] []; s.status.busy = false ∧ s.plen = 0 ∧ s.len ≤ s.cfg.cbBytes ∧ s.len < 4) := by decide

theorem witness_StepwiseOperationIsTheAtomicOne :
    ((saying e5 [.wr 0 0, .wait]).status.busy = false ∧ decode 0 = .ok .embed ∧
      (saying e5 [.wr 0 0, .wait]).script = .wr 0 0 :: .wait :: []) ∧
    ((saying x8 [.wr 0 1, .wait]).status.busy = false ∧ decode 1 = .ok .extract ∧
      (saying x8 [.wr 0 1, .wait]).script = .wr 0 1 :: .wait :: []) := ⟨⟨rfl, rfl, rfl⟩, rfl, rfl, rfl⟩

/-- A command on too short a buffer, and on one beyond `CB_BYTES`, just accepted. -/
def tooShort : State := accept 0 (codec 16 8 2 [] [])
def tooLong : State := accept 1 (codec 16 17 2 [] [])

theorem tooShort_inv : tooShort.Inv where
  cfg_wf := by decide
  len_fits := by decide
  plen_fits := by decide
  cur_fits := by decide
  olen_le := by decide
  status_legal := ⟨by decide, by decide, by decide⟩
  cur_aligned := by decide
  embed_at := fun _ _ => .inl rfl
  extract_at := fun _ h => absurd h (by decide)
  mem_wf := by intro sp; cases sp <;> decide
  mem_within := by intro sp; cases sp <;> decide

theorem tooLong_inv : tooLong.Inv where
  cfg_wf := by decide
  len_fits := by decide
  plen_fits := by decide
  cur_fits := by decide
  olen_le := by decide
  status_legal := ⟨by decide, by decide, by decide⟩
  cur_aligned := by decide
  embed_at := fun _ h => absurd h (by decide)
  extract_at := fun _ _ => .inl (by decide)
  mem_wf := by intro sp; cases sp <;> decide
  mem_within := by intro sp; cases sp <;> decide

/-- Either operation in the middle, and one with each cause. -/
theorem witness_EveryOperationCompletes :
    ((embedding 2).Inv ∧ (embedding 2).status.busy = true ∧ (embedding 2).script = []) ∧
    ((extracting 2).Inv ∧ (extracting 2).status.busy = true ∧ (extracting 2).script = []) ∧
    (tooShort.Inv ∧ tooShort.status.busy = true ∧ tooShort.script = [] ∧
      tooShort.opl = 0 ∧ tooShort.len / 4 ≤ tooShort.plen) ∧
    (tooLong.Inv ∧ tooLong.status.busy = true ∧ tooLong.script = [] ∧ tooLong.len > tooLong.cfg.cbBytes) :=
  ⟨⟨embedding_inv, rfl, rfl⟩, ⟨extracting_inv, rfl, rfl⟩, ⟨tooShort_inv, by decide⟩, tooLong_inv, by decide⟩

theorem witness_ResetDuringEmbedLeavesInitialWrites :
    (saying e5 (.wr 0 0 :: (List.replicate 1 .tick ++ .reset 3 :: []))).status.busy = false ∧
    (saying e5 (.wr 0 0 :: (List.replicate 1 .tick ++ .reset 3 :: []))).script =
      .wr 0 0 :: (List.replicate 1 .tick ++ .reset 3 :: []) := ⟨rfl, rfl⟩

/-- No write done, and all of them. -/
theorem witness_ResetDuringEmbedCanLeaveAnyInitialWrites : ∀ m ∈ [0, 12],
    e5.status.busy = false ∧ e5.len ≤ e5.cfg.cbBytes ∧ e5.plen < e5.len / 4 ∧ m ≤ 4 * (e5.plen + 1) := by decide

/-- After one quad of a buffer without a zero quad; and after the terminator quad 1 of another, with quads left. -/
theorem witness_ResetDuringExtractLeavesInitialOutput :
    ((saying x8 (.wr 0 1 :: (List.replicate 1 .tick ++ .reset 0 :: []))).status.busy = false ∧
    (saying x8 (.wr 0 1 :: (List.replicate 1 .tick ++ .reset 0 :: []))).script =
      .wr 0 1 :: (List.replicate 1 .tick ++ .reset 0 :: [])) ∧
    ((saying stops (.wr 0 1 :: (List.replicate 2 .tick ++ .reset 0 :: []))).status.busy = false ∧
    (saying stops (.wr 0 1 :: (List.replicate 2 .tick ++ .reset 0 :: []))).script =
      .wr 0 1 :: (List.replicate 2 .tick ++ .reset 0 :: [])) := ⟨⟨rfl, rfl⟩, rfl, rfl⟩

/-- The last byte of `CB`, after two quad steps. -/
theorem witness_HostReadsUnchangedBufferDuringExtract :
    let s := saying x8 (.wr 0 1 :: (List.replicate 2 .tick ++ .rb .cb 15 :: []));
    s.status.busy = false ∧ 15 < s.cfg.cbBytes ∧ s.script = .wr 0 1 :: (List.replicate 2 .tick ++ .rb .cb 15 :: []) := by
  decide

/-- A turn of an `EMBED` in the middle, of an `EXTRACT` in the middle, and of an idle codec; with offsets just outside
the bytes that the turn may write. -/
theorem witness_EngineTurnFrame :
    ((embedding 1).script = [] ∧ (embedding 1).opl = 0 ∧ (3 < (embedding 1).cur ∧ (embedding 1).cur + 4 ≤ 8) ∧
      ∃ t, step (embedding 1) = .next t ∧ t.cur = 8) ∧
    ((extracting 1).script = [] ∧ (extracting 1).opl = 1 ∧ (0 ≠ (extracting 1).olen ∧ 2 ≠ (extracting 1).olen) ∧
      ∃ t, step (extracting 1) = .next t ∧ t.cur = 8) ∧
    (e5.script = [] ∧ e5.status.busy = false ∧ ∃ t, step e5 = .next t ∧ t.cur = 0) :=
  ⟨⟨rfl, rfl, by decide, of_see (by decide)⟩, ⟨rfl, rfl, by decide, of_see (by decide)⟩, rfl, rfl, of_see (by decide)⟩

/-- A breach (a read of `CB` during an `EMBED`) and an allowed access (the same read during an `EXTRACT`). -/
theorem witness_ContractBreachesAreRefused :
    (let s := saying (embedding 1) [.rb .cb 0];
      s.script = .rb .cb 0 :: [] ∧ s.status.busy = true ∧ (HostAct.rb .cb 0).wf s.cfg = true) ∧
    (let s := saying (extracting 1) [.rb .cb 15];
      s.script = .rb .cb 15 :: [] ∧ s.status.busy = true ∧ (HostAct.rb .cb 15).wf s.cfg = true) := by decide

/-- One missing access of each kind, at its boundary. -/
theorem witness_AccessesTheInterfaceLacksAreRefused :
    refusal? (step (saying e5 [.wr 1 0])) = some .noSuchAccess ∧ refusal? (step (saying e5 [.wr 4 0])) = some .noSuchAccess ∧
    refusal? (step (saying e5 [.wr 3 32])) = some .noSuchAccess ∧ refusal? (step (saying e5 [.rd 0])) = some .noSuchAccess ∧
    refusal? (step (saying e5 [.rd 5])) = some .noSuchAccess ∧ refusal? (step (saying e5 [.wb .om 0 0])) = some .noSuchAccess ∧
    refusal? (step (saying e5 [.wb .cb 16 0])) = some .noSuchAccess ∧
    refusal? (step (saying e5 [.rb .pm 4])) = some .noSuchAccess := by decide

theorem witness_HostWritesLengthRegisters :
    e5.status.busy = false ∧ 31 < 2 ^ e5.cfg.lw ∧ (saying e5 [.wr 2 31]).script = .wr 2 31 :: [] ∧
    (saying e5 [.wr 3 31]).script = .wr 3 31 :: [] := by decide

/-- `RD STATUS` while busy; the others while idle. -/
theorem witness_HostReadsRegisters :
    ((saying (embedding 1) [.rd 1]).status.busy = true ∧ (saying (embedding 1) [.rd 1]).script = .rd 1 :: []) ∧
    ∀ reg ∈ [2, 3, 4], (saying e5 [.rd reg]).status.busy = false ∧ (saying e5 [.rd reg]).script = .rd reg :: [] := by decide

theorem witness_HostAccessesBytes :
    (e5.status.busy = false ∧ 15 < e5.cfg.size .cb ∧ Space.cb ≠ .om ∧ (saying e5 [.wb .cb 15 7]).script = .wb .cb 15 7 :: []) ∧
    (3 < e5.cfg.size .pm ∧ Space.pm ≠ .om ∧ (saying e5 [.wb .pm 3 7]).script = .wb .pm 3 7 :: []) ∧
    (3 < e5.cfg.size .om ∧ (saying e5 [.rb .om 3]).script = .rb .om 3 :: []) := by decide

/-- While idle; during an `EXTRACT`; during an `EMBED` with a unit left, `drawn` at 0, 4 and above; during one with none. -/
theorem witness_ResetAtAnyTime :
    ((saying e5 [.reset 0]).script = .reset 0 :: [] ∧ (saying e5 [.reset 0]).status.busy = false) ∧
    (let s := saying (extracting 1) [.reset 2];
      s.script = .reset 2 :: [] ∧ s.status.busy = true ∧ s.opl = 1 ∧ embedWriting s = false) ∧
    (∀ drawn ∈ [0, 4, 5],
      let s := saying (embedding 2) [.reset drawn];
      s.script = .reset drawn :: [] ∧ s.status.busy = true ∧ embedWriting s = true) ∧
    (let s := saying (embedding 3) [.reset 2];
      s.script = .reset 2 :: [] ∧ s.status.busy = true ∧ s.opl = 0 ∧ embedWriting s = false) := by decide

/-- R121: two byte writes of unit 1 (`0x69`) are done, at offsets 4 and 5 of a buffer of `FF`; 6 and 3 are old. -/
theorem test_reset_draw : see (step (saying (embedding 1) [.reset 2]))
    (fun t => (t.status.word, [3, 4, 5, 6].map (t.byte .cb))) = some (0b0000#4, [0xFF, 0xFD, 0xFE, 0xFF]) := by decide

/-- Done; and not done, with a next state. -/
theorem witness_WaitPollsUntilDone :
    (let s : State := { saying e5 [.wait] with status := ⟨false, true, true, false⟩ };
      s.script = .wait :: [] ∧ s.status.done = true) ∧
    ((saying (embedding 1) [.wait]).script = .wait :: [] ∧ (saying (embedding 1) [.wait]).status.done = false ∧
      ∃ t, step (saying (embedding 1) [.wait]) = .next t ∧ t.cur = 8) := ⟨by decide, rfl, rfl, of_see (by decide)⟩

/-- A next state by each way `STATUS` changes, and one that leaves it. -/
theorem witness_StatusChangesOnlyAtAcceptAndComplete :
    (∃ t, step (saying e5 [.wr 2 4]) = .next t ∧ t.status.word = 0b0000#4) ∧
    (∃ t, step (saying e5 [.wr 0 0]) = .next t ∧ t.status.word = 0b0001#4) ∧
    (∃ t, step (embedding 3) = .next t ∧ t.status.word = 0b0110#4) ∧
    (∃ t, step (saying e5 [.call 1]) = .next t ∧ t.status.word = 0b0110#4) ∧
    ∃ t, step (saying (embedding 1) [.reset 2]) = .next t ∧ t.status.word = 0b0000#4 :=
  ⟨of_see (by decide), of_see (by decide), of_see (by decide), of_see (by decide), of_see (by decide)⟩

theorem witness_ConfigurationNeverChanges : ∃ t, step (saying e5 [.reset 0]) = .next t ∧ t.len = 0 := of_see (by decide)

/-- The smallest configuration, and the programs'. -/
theorem witness_ResetMeetsTheInvariant : Config.wf { cbBytes := 0, lw := 0 } ∧ Config.programs.wf := by decide

theorem witness_EveryStepKeepsTheInvariant :
    ((embedding 2).Inv ∧ ∃ t, step (embedding 2) = .next t ∧ t.cur = 12) ∧
    ((extracting 2).Inv ∧ ∃ t, step (extracting 2) = .next t ∧ t.olen = 3) :=
  ⟨⟨embedding_inv, of_see (by decide)⟩, extracting_inv, of_see (by decide)⟩

theorem witness_NoAccessIsOutOfRange : (embedding 2).Inv ∧ (embedding 2).script = [] := ⟨embedding_inv, rfl⟩

/-- `STATUS` at `0b0001`, `0b0010`, `0b0110`, `0b1010`. -/
theorem witness_StatusReadsAsOneOfFiveValues :
    (embedding 2).Inv ∧ ({ e5 with status := ⟨false, true, false, false⟩ } : State).Inv ∧
    ({ e5 with status := ⟨false, true, true, false⟩ } : State).Inv ∧
    ({ e5 with status := ⟨false, true, false, true⟩ } : State).Inv :=
  ⟨embedding_inv, done_inv rfl, done_inv rfl, done_inv rfl⟩

end Sys2Proof.Tests
end

section
/-! # Running a host script

Laws of `run`, and what each line that the scripts of the obligations are made of does as a step. -/

namespace Sys2Proof.Machine

open Sys2Proof

/-- Running `m + n` steps is running `m` steps and then `n` more. -/
theorem run_add (m n : Nat) (s : State) : run (m + n) s = andThen (run m s) (run n) := by
  induction m generalizing s with
  | zero => simp [run]
  | succ m ih =>
    rw [Nat.succ_add, run, run, andThen_assoc]
    exact congrArg (andThen (step s)) (funext ih)

/-- One step run is that step. -/
@[simp] theorem run_one (s : State) : run 1 s = step s := by
  cases h : step s <;> simp [run, h, andThen]

/-- A line the interface has and the contract allows is performed, on the state with the lines after it. -/
theorem step_eq_perform {s : State} {a : HostAct} {rest : List HostAct} (hs : s.script = a :: rest)
    (hw : a.wf s.cfg = true) (hc : contractAllows { s with script := rest } a = true) :
    step s = perform a { s with script := rest } := by
  rw [step_cons hs, hostMove, if_pos (by exact hw), if_pos hc]

/-- A `tick` line is a turn of the engine. -/
theorem step_tick {s : State} {rest : List HostAct} (hs : s.script = .tick :: rest) :
    step s = engineTurn { s with script := rest } :=
  step_eq_perform hs rfl rfl

/-- A write of a command word to `CMD` while idle accepts the command (10_state.md R20). -/
theorem step_wr_cmd {s : State} {w : Nat} {i : Instr} {rest : List HostAct} (hb : s.status.busy = false)
    (hs : s.script = .wr 0 w :: rest) (hd : decode w = .ok i) :
    step s = .next (accept (encode i) { s with script := rest }) := by
  rw [step_eq_perform hs (by rfl) (by simp [contractAllows, hb])]
  simp [perform, writeReg, startCommand, hd]

/-- A read of a byte of `CB` while `OPL` holds `EXTRACT` is answered, whether or not the operation is still in progress
(70_reset_and_hazards.md R126). -/
theorem step_rb_cb {s : State} {a : Nat} {rest : List HostAct} (ho : s.opl = 1) (ha : a < s.cfg.cbBytes)
    (hs : s.script = .rb .cb a :: rest) :
    step s = .next { s with script := rest, replies := (s.byte .cb a).toNat :: s.replies } := by
  have hw : (HostAct.rb .cb a).wf s.cfg = true := decide_eq_true ha
  rw [step_eq_perform hs hw (by simp [contractAllows, ho])]
  rfl

end Sys2Proof.Machine
end

section
/-! # The turns of an `EXTRACT`

A turn of an `EXTRACT` always answers, from any state, and writes at most `STATUS`, `CUR`, `OLEN` and `OM`; so `CB` is
at every moment what it was at accept (20_memory.md R44). -/

namespace Sys2Proof.Machine

open Sys2Proof

/-- A turn of the engine with `OPL` at `EXTRACT` answers a next state and changes at most `STATUS`, `CUR`, `OLEN` and
`OM` (42_extract.md R83). No invariant is needed: the quad step is guarded by the engine's own checks. -/
theorem engineTurn_extract {s : State} (ho : s.opl = 1) :
    ∃ st cur olen om, engineTurn s = .next { s with status := st, cur := cur, olen := olen, om := om } := by
  by_cases hb : s.status.busy = true
  · rw [engineTurn, if_pos hb]
    cases hx : extractCause s with
    | some c => exact ⟨_, _, _, _, engineStep_extract_cause ho hx⟩
    | none =>
      have hl := (extractCause_eq_none s).mp hx
      by_cases hg : s.cur = 4 * s.olen ∧ s.cur + 4 ≤ s.len
      · rw [engineStep_extract_quad ho hl hg.1 hg.2, extractQuad_form]
        exact ⟨s.status, _, _, _, rfl⟩
      · exact ⟨_, _, _, _, engineStep_extract_done ho hl (by tauto)⟩
  · exact ⟨s.status, s.cur, s.olen, s.om, by rw [engineTurn, if_neg hb]⟩

/-- Any number of `tick` lines during an `EXTRACT` answer, and change at most what one turn may change. -/
theorem run_ticks_extract {s : State} {n : Nat} {rest : List HostAct} (ho : s.opl = 1)
    (hs : s.script = List.replicate n .tick ++ rest) :
    ∃ st cur olen om,
      run n s = .next { s with script := rest, status := st, cur := cur, olen := olen, om := om } := by
  induction n generalizing s with
  | zero =>
    obtain rfl : s.script = rest := hs
    exact ⟨s.status, s.cur, s.olen, s.om, rfl⟩
  | succ n ih =>
    obtain ⟨st, cur, olen, om, hturn⟩ :=
      engineTurn_extract (s := { s with script := List.replicate n .tick ++ rest }) ho
    rw [run, step_tick (rest := List.replicate n .tick ++ rest) hs, hturn, andThen_next]
    exact ih ho rfl

/-- The write of `CMD` that starts an `EXTRACT`, and any number of `tick` lines after it, answer, and keep everything
but `OPL` and what the turns may change. -/
theorem run_extract_started {s : State} {n : Nat} {rest : List HostAct} (hb : s.status.busy = false)
    (hs : s.script = .wr 0 1 :: (List.replicate n .tick ++ rest)) :
    ∃ st cur olen om,
      run (n + 1) s = .next { s with script := rest, opl := 1, status := st, cur := cur, olen := olen, om := om } := by
  rw [run, step_wr_cmd (i := .extract) hb hs rfl, andThen_next]
  exact run_ticks_extract rfl rfl

/-- Settles O37: accept and the engine's turns keep `CB` (`run_extract_started`), and the read is answered from it. -/
theorem hostReadsUnchangedBufferDuringExtract : Obligations.HostReadsUnchangedBufferDuringExtract := by
  intro s n a rest hb ha hs
  obtain ⟨st, cur, olen, om, hstarted⟩ := run_extract_started hb hs
  rw [run_add (n + 1) 1, hstarted, andThen_next, run_one]
  exact ⟨_, step_rb_cb rfl ha rfl, rfl, rfl⟩

end Sys2Proof.Machine
end

section
/-! # The opcode map

The command words are exactly the values of the 1-bit field `OP`, so the decoder's totality is that it reads back every
encoded command (30_encoding.md R51). -/

namespace Sys2Proof

/-- Decoding the word of a command gives the command back (30_encoding.md R51). -/
theorem decode_encode (i : Instr) : decode (encode i).toNat = .ok i := by
  cases i with
  | embed => rfl
  | extract => rfl

/-- Every value of `OP` is the word of a command: no encoding is left over (30_encoding.md R53). -/
theorem encode_surjective : Function.Surjective encode := by
  intro op
  obtain rfl | rfl := BitVec.eq_zero_or_eq_one op
  · exact ⟨.embed, rfl⟩
  · exact ⟨.extract, rfl⟩

/-- Settles O1: the rows are `decode_encode` at the two commands, and every `OP` is the word of one of them. -/
theorem decoderReadsTheOpcodeMap : Obligations.DecoderReadsTheOpcodeMap := by
  refine ⟨decode_encode .embed, decode_encode .extract, fun op => ?_⟩
  obtain ⟨i, rfl⟩ := encode_surjective op
  exact ⟨i, decode_encode i⟩

end Sys2Proof
end

section
/-! # The bit-quad layout in its second form

What `pack` and `unpack` do to a byte as concatenations of bit slices and as arithmetic on the byte's value, beside the
masks and shifts that define them (40_quad_layout.md R61 to R63). -/

namespace Sys2Proof.Machine

open Sys2Proof

/-- The value of the low two bits of a byte. -/
theorem toNat_and_lowMask (c : Byte) : (c &&& lowMask).toNat = c.toNat % 4 :=
  (BitVec.toNat_and c lowMask).trans (Nat.and_two_pow_sub_one_eq_mod c.toNat 2)

/-- The low two bits of a byte, as a slice. -/
theorem and_lowMask_eq_extractLsb' (c : Byte) : c &&& lowMask = (c.extractLsb' 0 2).zeroExtend 8 := by
  apply BitVec.eq_of_toNat_eq
  rw [toNat_and_lowMask, BitVec.toNat_setWidth, BitVec.extractLsb'_toNat]
  omega

/-- Group `k` is the slice of two bits at offset `6 - 2k` (40_quad_layout.md R61). -/
theorem group_eq_extractLsb' (b : Byte) (k : Nat) : group b k = (b.extractLsb' (6 - 2 * k) 2).zeroExtend 8 := by
  have hslice : (b >>> (6 - 2 * k)).extractLsb' 0 2 = b.extractLsb' (6 - 2 * k) 2 :=
    BitVec.eq_of_toNat_eq (by simp)
  rw [group, and_lowMask_eq_extractLsb', hslice]

/-- Packing the terminator clears the low two bits (40_quad_layout.md R62). -/
theorem packByte_zero (k : Nat) (c : Byte) : packByte 0x00 k c = c &&& coverMask := by
  simp [packByte, group]

/-- Every group of a unit of eight ones is `0b11`. -/
theorem group_ones (k : Nat) : group 0xFF k = lowMask := by
  have hshift : ∀ j ≤ 6, ((0xFF : Byte) >>> j) &&& lowMask = lowMask := by decide
  exact hshift _ (Nat.sub_le 6 (2 * k))

/-- Packing a unit of eight ones sets the low two bits (40_quad_layout.md R62). -/
theorem packByte_ones (k : Nat) (c : Byte) : packByte 0xFF k c = c ||| lowMask := by
  have hcover : coverMask = ~~~lowMask := rfl
  rw [packByte, group_ones, hcover]
  ext i
  simp [Bool.or_and_distrib_right]

/-- A packed channel byte is the old cover bits followed by the group (40_quad_layout.md R62). -/
theorem packByte_eq_append (b : Byte) (k : Nat) (c : Byte) :
    packByte b k c = c.extractLsb' 2 6 ++ b.extractLsb' (6 - 2 * k) 2 := by
  apply BitVec.eq_of_getLsbD_eq
  intro i hi
  rw [packByte_bit k b c hi, BitVec.getLsbD_append]
  split
  next hlt => simp [hlt]
  next hge =>
    have hfield : i - 2 < 6 := by omega
    simp [hfield, Nat.add_sub_cancel' (Nat.not_lt.mp hge)]

/-- A byte whose low two bits are the group already is written back unchanged (40_quad_layout.md R62). -/
theorem packByte_eq_self {b c : Byte} {k : Nat} (h : c &&& lowMask = group b k) : packByte b k c = c := by
  have hmasks : coverMask ||| lowMask = BitVec.allOnes 8 := rfl
  rw [packByte, ← h, ← BitVec.and_or_distrib_left, hmasks, BitVec.and_allOnes]

/-- `unpack` is the concatenation of the low fields of its bytes (40_quad_layout.md R63). -/
theorem unpack_eq_append (c0 c1 c2 c3 : Byte) :
    unpack c0 c1 c2 c3 = c0.extractLsb' 0 2 ++ c1.extractLsb' 0 2 ++ c2.extractLsb' 0 2 ++ c3.extractLsb' 0 2 := by
  simp only [unpack, and_lowMask_eq_extractLsb']
  generalize c0.extractLsb' 0 2 = x0, c1.extractLsb' 0 2 = x1, c2.extractLsb' 0 2 = x2, c3.extractLsb' 0 2 = x3
  revert x0 x1 x2 x3
  decide

/-- The four fields of `unpack` do not overlap, so that their sum does not carry (40_quad_layout.md R63). -/
theorem toNat_unpack (c0 c1 c2 c3 : Byte) :
    (unpack c0 c1 c2 c3).toNat = c0.toNat % 4 * 64 + c1.toNat % 4 * 16 + c2.toNat % 4 * 4 + c3.toNat % 4 := by
  have hcat (m : Nat) (x : BitVec m) (c : Byte) : (x ++ c.extractLsb' 0 2).toNat = x.toNat * 4 + c.toNat % 4 := by
    rw [BitVec.toNat_append, ← Nat.shiftLeft_add_eq_or_of_lt (BitVec.isLt _)]
    simp [Nat.shiftLeft_eq]
  rw [unpack_eq_append, hcat, hcat, hcat, BitVec.extractLsb'_toNat]
  omega

/-- `unpack` tells two quads apart exactly when a low field differs: `unpack_congr` and its converse. -/
theorem unpack_eq_unpack_iff {c0 c1 c2 c3 d0 d1 d2 d3 : Byte} :
    unpack c0 c1 c2 c3 = unpack d0 d1 d2 d3 ↔
      c0 &&& lowMask = d0 &&& lowMask ∧ c1 &&& lowMask = d1 &&& lowMask ∧
      c2 &&& lowMask = d2 &&& lowMask ∧ c3 &&& lowMask = d3 &&& lowMask := by
  simp only [← BitVec.toNat_inj, toNat_unpack, toNat_and_lowMask]
  omega

/-- Settles O6: bits 1 and 0 of each packed byte by `packByte_bit`, the slice form by `group_eq_extractLsb'`. -/
theorem packPlacesEachBit : Obligations.PackPlacesEachBit := by
  refine ⟨fun b c0 c1 c2 c3 => ?_, fun b k _ => ⟨rfl, group_eq_extractLsb' b k⟩, by decide⟩
  have hbit (k : Nat) (c : Byte) : (packByte b k c).getLsbD 1 = b.getLsbD (6 - 2 * k + 1) ∧
      (packByte b k c).getLsbD 0 = b.getLsbD (6 - 2 * k) :=
    ⟨packByte_bit k b c (by decide), packByte_bit k b c (by decide)⟩
  exact ⟨hbit 0 c0, hbit 1 c1, hbit 2 c2, hbit 3 c3⟩

/-- Settles O7: each statement about `pack` is the one about `packByte` at each of its four bytes. -/
theorem packIsTheFourNewBytes : Obligations.PackIsTheFourNewBytes := by
  refine ⟨fun b c0 c1 c2 c3 => ⟨?masks, ?slices⟩, fun c0 c1 c2 c3 => ⟨?terminator, ?ones⟩,
    fun b c k _ h => packByte_eq_self h, by decide, by decide⟩
  case masks => simp [pack, packByte, group, coverMask, lowMask]
  case slices => simp only [pack, packByte_eq_append]
  case terminator => simp only [pack, packByte_zero, coverMask]
  case ones => simp only [pack, packByte_ones, lowMask]

/-- Settles O9: the two corner cases are `unpack_eq_unpack_iff` against the quads of clear and of set low bits. -/
theorem unpackIsTheFourGroups : Obligations.UnpackIsTheFourGroups := by
  refine ⟨fun c0 c1 c2 c3 => ⟨rfl, unpack_eq_append c0 c1 c2 c3, toNat_unpack c0 c1 c2 c3, ?_, ?_⟩,
    by decide, by decide⟩
  · exact unpack_eq_unpack_iff (d0 := 0x00) (d1 := 0x00) (d2 := 0x00) (d3 := 0x00)
  · exact unpack_eq_unpack_iff (d0 := 0x03) (d1 := 0x03) (d2 := 0x03) (d3 := 0x03)

end Sys2Proof.Machine
end

section
/-! # The commands from an idle codec, and the empty payload

Each command as one step, from its accept to its completion, in closed form (41_embed.md R78, 42_extract.md R88); the
empty payload is its least case (43_properties.md R93). -/

namespace Sys2Proof.Machine

open Sys2Proof

/-- The state a successful `EMBED` leaves: units 0 to `PLEN` packed, and the command completed (41_embed.md R78). -/
def embedded (s : State) : State := complete true (embedQuad^[s.plen + 1] (accept 0 s))

/-- A successful `EMBED` changes `CB`, `CUR`, `OPL` and `STATUS` and nothing else (41_embed.md R78). -/
theorem embedded_form (s : State) :
    embedded s = { s with
      cb := (embedded s).cb, cur := 4 * (s.plen + 1), opl := 0, status := ⟨false, true, true, false⟩ } := by
  unfold embedded
  rw [embedQuads_form, accept_cur, Nat.zero_add]
  rfl

/-- Every byte after a successful `EMBED` (41_embed.md R78). -/
theorem embedded_byte (s : State) (sp : Space) (a : Nat) :
    (embedded s).byte sp a =
      if sp = .cb ∧ a < 4 * (s.plen + 1) then packByte (s.unit (a / 4)) (a % 4) (s.byte .cb a) else s.byte sp a := by
  have hunit : (accept 0 s).unit (a / 4) = s.unit (a / 4) := by simp [State.unit]
  rw [embedded, complete_byte, embedQuads_byte _ _ (by simp), hunit]
  simp

/-- The quads a successful `EMBED` writes carry its units (41_embed.md R73). -/
theorem embedded_quadAt {s : State} {i : Nat} (hi : i ≤ s.plen) : (embedded s).quadAt (4 * i) = s.unit i := by
  have hlow (k : Nat) (hk : k < 4) : (embedded s).byte .cb (4 * i + k) &&& lowMask = group (s.unit i) k := by
    rw [embedded_byte, if_pos ⟨rfl, by omega⟩, packByte_low]
    congr 2 <;> omega
  have hlow_zero : (embedded s).byte .cb (4 * i) &&& lowMask = group (s.unit i) 0 := hlow 0 (by decide)
  rw [State.quadAt, unpack, hlow_zero, hlow 1 (by decide), hlow 2 (by decide), hlow 3 (by decide), join_groups]

/-- `EMBED` while idle is its accept and then the checks and the loop (41_embed.md R70). -/
theorem exec_embed_of_idle {s : State} (hb : s.status.busy = false) :
    exec .embed s = embedAccepted (accept 0 s) := by
  simp only [exec, execEmbed, hb, Bool.false_eq_true, if_false]

/-- `EXTRACT` while idle is its accept and then the check and the loop (42_extract.md R80). -/
theorem exec_extract_of_idle {s : State} (hb : s.status.busy = false) :
    exec .extract s = extractAccepted (accept 1 s) := by
  simp only [exec, execExtract, hb, Bool.false_eq_true, if_false]

/-- An idle `EMBED` of a legal buffer that the payload fits succeeds (41_embed.md R78). -/
theorem exec_embed_of_fits {s : State} (hb : s.status.busy = false) (hl : s.len ≤ s.cfg.cbBytes)
    (hq : s.plen < s.quads) : exec .embed s = .next (embedded s) := by
  have hcause : embedCause (accept 0 s) = none := (embedCause_eq_none _).mpr ⟨hl, hq⟩
  have hloop := embedLoop_spec (s := accept 0 s) (s.plen + 1) hl hq (by simp) (by simp)
  rw [exec_embed_of_idle hb, embedAccepted, hcause, accept_plen, hloop]
  rfl

/-- An idle `EMBED` of a legal buffer too short for the payload reports it (41_embed.md R72). -/
theorem exec_embed_of_not_fits {s : State} (hb : s.status.busy = false) (hl : s.len ≤ s.cfg.cbBytes)
    (hq : s.quads ≤ s.plen) : exec .embed s = .next (raiseCause .insufficientCapacity (accept 0 s)) := by
  have hcause : embedCause (accept 0 s) = some .insufficientCapacity := by
    rw [embedCause, if_neg (by exact Nat.not_lt.mpr hl), if_neg (by exact Nat.not_lt.mpr hq)]
  rw [exec_embed_of_idle hb, embedAccepted, hcause]

/-- An idle `EXTRACT` of a legal buffer succeeds and appends `k` quads: those before the first terminator quad, which
it reads too, or every whole quad if there is none (42_extract.md R84, R88). -/
theorem exec_extract_of_legal {s : State} (hb : s.status.busy = false) (hl : s.len ≤ s.cfg.cbBytes) :
    ∃ k ≤ s.quads, ∃ om' : Memory,
      exec .extract s = .next { s with
        om := om', olen := k, cur := 4 * k + (if k < s.quads then 4 else 0), opl := 1,
        status := ⟨false, true, true, false⟩ } ∧
      (∀ j < k, s.quadAt (4 * j) ≠ terminator) ∧
      (k < s.quads → s.quadAt (4 * k) = terminator) ∧
      ∀ j, om'.read? j = if j < k then some (s.quadAt (4 * j)) else s.om.read? j := by
  have hcause : extractCause (accept 1 s) = none := (extractCause_eq_none _).mpr hl
  have hquad (a : Nat) : (accept 1 s).quadAt a = s.quadAt a := by simp [State.quadAt]
  obtain ⟨k, hk, om', hloop, happended, hstop, hom⟩ :=
    extractLoop_spec (s := accept 1 s) s.quads hl (by simp) (by simp [State.quads])
  simp only [hquad, accept_olen, if_true, Nat.zero_add, Nat.zero_le, true_and, true_implies, accept_om]
    at hloop happended hstop hom
  refine ⟨k, hk, om', ?_, happended, hstop, hom⟩
  have hquads : (accept 1 s).quads = s.quads := rfl
  rw [exec_extract_of_idle hb, extractAccepted, hcause, hquads, hloop]
  rfl

/-- An idle `EXTRACT` of a legal buffer with a whole quad, of which the first is the terminator, reads that quad alone
and extracts nothing (42_extract.md R84). -/
theorem exec_extract_of_terminator_first {s : State} (hb : s.status.busy = false) (hl : s.len ≤ s.cfg.cbBytes)
    (hq : 0 < s.quads) (hz : s.quadAt 0 = terminator) : ∃ u, exec .extract s = .next u ∧ u.olen = 0 ∧ u.cur = 4 := by
  obtain ⟨k, -, om', hexec, happended, -⟩ := exec_extract_of_legal hb hl
  obtain rfl : k = 0 := Nat.eq_zero_of_not_pos fun hk => happended 0 hk hz
  exact ⟨_, hexec, rfl, by simp [hq]⟩

/-- An idle `EXTRACT` of a legal buffer without a whole quad reads and extracts nothing (42_extract.md R84). -/
theorem exec_extract_of_no_quad {s : State} (hb : s.status.busy = false) (hl : s.len ≤ s.cfg.cbBytes)
    (hq : s.quads = 0) : ∃ u, exec .extract s = .next u ∧ u.olen = 0 ∧ u.cur = 0 := by
  obtain ⟨k, hk, om', hexec, -⟩ := exec_extract_of_legal hb hl
  obtain rfl : k = 0 := Nat.le_zero.mp (hq ▸ hk)
  exact ⟨_, hexec, rfl, by simp [hq]⟩

/-- Every unit of an empty payload is the terminator (41_embed.md R75). -/
theorem unit_of_empty {s : State} (hp : s.plen = 0) (i : Nat) : s.unit i = terminator := by
  rw [State.unit, if_neg (by omega)]

/-- The `EMBED` of an empty payload packs the terminator alone: it clears the low two bits of `CB[0..3]` and changes
no other byte of `CB` (43_properties.md R93). -/
theorem embedded_byte_of_empty {s : State} (hp : s.plen = 0) (a : Nat) :
    (embedded s).byte .cb a = if a < 4 then s.byte .cb a &&& coverMask else s.byte .cb a := by
  rw [embedded_byte, unit_of_empty hp, terminator, packByte_zero, hp]
  simp

/-- Settles O31: with a whole quad, `EMBED` leaves a terminator at quad 0, at which `EXTRACT` stops; without one,
`EMBED` lacks capacity and `EXTRACT` has nothing to read. -/
theorem emptyPayload : Obligations.EmptyPayload := by
  refine fun s hb hp hl => ⟨fun hlen => ?_, fun hlen => ?_⟩
  · have hq : s.plen < s.quads := by rw [hp]; exact Nat.div_pos hlen (by decide)
    have hform := embedded_form s
    have hz : (embedded s).quadAt 0 = terminator := (embedded_quadAt (Nat.zero_le _)).trans (unit_of_empty hp 0)
    obtain ⟨u, hextract, holen, hcur⟩ := exec_extract_of_terminator_first (s := embedded s) (by rw [hform])
      (by rw [hform]; exact hl) (by rw [hform]; exact Nat.zero_lt_of_lt hq) hz
    exact ⟨_, u, exec_embed_of_fits hb hl hq, by rw [hform], embedded_byte_of_empty hp, hextract, holen, hcur⟩
  · have hq : s.quads = 0 := Nat.div_eq_of_lt hlen
    obtain ⟨u, hextract, holen, hcur⟩ := exec_extract_of_no_quad hb hl hq
    exact ⟨_, u, exec_embed_of_not_fits hb hl (by omega), rfl, hextract, holen, hcur⟩

end Sys2Proof.Machine
end

section
/-! # What a command that reports a cause leaves

A command that finds a cause is its accept and the report, as one step (60_exceptions.md R101, R102); `EMBED` ends in
that or in `embedded`. So a failure touches no memory (43_properties.md R98), and what there is to show of every
`EMBED` is shown of those two states (43_properties.md R91, R92). -/

namespace Sys2Proof.Machine

open Sys2Proof

/-- Only an idle codec completes a command: while busy the write of `CMD` is refused (70_reset_and_hazards.md R127). -/
theorem idle_of_exec {i : Instr} {s t : State} (h : exec i s = .next t) : s.status.busy = false := by
  cases hb : s.status.busy with
  | false => rfl
  | true => cases i <;> simp [exec, execEmbed, execExtract, hb] at h

/-- An idle `EMBED` whose checks find a cause reports it (41_embed.md R71, R72). -/
theorem exec_embed_of_cause {s : State} {c : Cause} (hb : s.status.busy = false) (hc : embedCause s = some c) :
    exec .embed s = .next (raiseCause c (accept 0 s)) := by
  have hcause : embedCause (accept 0 s) = some c := hc
  rw [exec_embed_of_idle hb, embedAccepted, hcause]

/-- An idle `EXTRACT` of a buffer longer than `CB` reports `BadLength` (42_extract.md R81). -/
theorem exec_extract_of_bad_length {s : State} (hb : s.status.busy = false) (hl : s.cfg.cbBytes < s.len) :
    exec .extract s = .next (raiseCause .badLength (accept 1 s)) := by
  have hcause : extractCause (accept 1 s) = some .badLength := if_pos hl
  rw [exec_extract_of_idle hb, extractAccepted, hcause]

/-- The two ways an `EMBED` ends: its checks report a cause, or the payload is embedded (60_exceptions.md R100). -/
theorem exec_embed_cases {s : State} (hb : s.status.busy = false) :
    (∃ c, embedCause s = some c ∧ exec .embed s = .next (raiseCause c (accept 0 s))) ∨
      (embedCause s = none ∧ exec .embed s = .next (embedded s)) := by
  cases hc : embedCause s with
  | some c => exact .inl ⟨c, rfl, exec_embed_of_cause hb hc⟩
  | none =>
    obtain ⟨hl, hq⟩ := (embedCause_eq_none s).mp hc
    exact .inr ⟨rfl, exec_embed_of_fits hb hl hq⟩

/-- A successful `EMBED` ends with `STATUS = 0b0110` (60_exceptions.md R100). -/
@[simp] theorem embedded_status (s : State) : (embedded s).status = ⟨false, true, true, false⟩ := by
  rw [embedded_form]

/-- A legal buffer holds the payload and its terminator exactly when `EMBED` ends with `OK = 1`; when it does not, `CB`
is not written (43_properties.md R91). -/
theorem exec_embed_capacity {s : State} (hb : s.status.busy = false) (hl : s.len ≤ s.cfg.cbBytes) :
    ∃ t, exec .embed s = .next t ∧ (t.status.ok = true ↔ s.plen < s.quads) ∧ (t.status.ok = false → t.cb = s.cb) := by
  obtain hq | hq := Nat.lt_or_ge s.plen s.quads
  · exact ⟨_, exec_embed_of_fits hb hl hq, by simp [hq], by simp⟩
  · exact ⟨_, exec_embed_of_not_fits hb hl hq, by simp [hq], by simp⟩

/-- Settles O11: `OK` says whether `PLEN` is below the number of whole quads (`exec_embed_capacity`); the rest is
division by 4. -/
theorem capacityBoundary : Obligations.CapacityBoundary := by
  intro s hb hl
  obtain ⟨t, hexec, hok, hcb⟩ := exec_embed_capacity hb hl
  rw [State.quads] at hok
  have hiff : t.status.ok = true ↔ 4 * (s.plen + 1) ≤ s.len := hok.trans (by omega)
  refine ⟨t, hexec, hok, hiff, fun hlen => ?_, fun hlen => hiff.mpr hlen.ge⟩
  have hfail : t.status.ok = false := Bool.eq_false_iff.mpr fun h => by have := hiff.mp h; omega
  exact ⟨hfail, hcb hfail⟩

/-- Bits 7 to 2 of a packed channel byte are the old byte's (40_quad_layout.md R62). -/
theorem packByte_extractLsb'_cover (b : Byte) (k : Nat) (c : Byte) :
    (packByte b k c).extractLsb' 2 6 = c.extractLsb' 2 6 := by
  rw [packByte_eq_append, BitVec.extractLsb'_append_eq_left]

/-- Settles O12: a report writes no byte of `CB`, and each byte an embedding writes is packed over the old one. -/
theorem embedKeepsUpperBits : Obligations.EmbedKeepsUpperBits := by
  intro s hb
  obtain ⟨c, -, hexec⟩ | ⟨-, hexec⟩ := exec_embed_cases hb
  · exact ⟨_, hexec, fun a => by rw [raiseCause_byte, accept_byte]⟩
  · refine ⟨_, hexec, fun a => ?_⟩
    rw [embedded_byte]
    split
    · exact packByte_extractLsb'_cover ..
    · rfl

/-- Settles O25: `OK = 0` rules out both successful ends, and a report changes only what accept and `STATUS` do. -/
theorem failureIsClean : Obligations.FailureIsClean := by
  constructor
  case left =>
    intro s t h hfail
    obtain ⟨c, -, hexec⟩ | ⟨-, hexec⟩ := exec_embed_cases (idle_of_exec h)
    all_goals obtain rfl := Host.Outcome.next.inj (hexec.symm.trans h)
    · simp
    · simp at hfail
  case right =>
    intro s t h hfail
    obtain hl | hl := Nat.lt_or_ge s.cfg.cbBytes s.len
    · obtain rfl := Host.Outcome.next.inj ((exec_extract_of_bad_length (idle_of_exec h) hl).symm.trans h)
      exact ⟨rfl, rfl, rfl, rfl, rfl, rfl, rfl⟩
    · obtain ⟨k, -, om', hexec, -⟩ := exec_extract_of_legal (idle_of_exec h) hl
      obtain rfl := Host.Outcome.next.inj (hexec.symm.trans h)
      simp at hfail

end Sys2Proof.Machine
end

section
/-! # Where an extraction stops

`CB` and `LEN` fix the number of quads an `EXTRACT` appends: those before the first terminator quad, or every whole quad
(42_extract.md R84). So equal buffers give equal results (43_properties.md R94), and of an embedded payload without a
zero byte exactly the payload comes back (43_properties.md R90). -/

namespace Sys2Proof.Machine

open Sys2Proof

/-- An `EXTRACT` of `s` appends `k` quads: none of them is the terminator, and quad `k`, if it is a whole quad, is
(42_extract.md R84). -/
structure State.StopsAt (s : State) (k : Nat) : Prop where
  le_quads : k ≤ s.quads
  not_terminator : ∀ j < k, s.quadAt (4 * j) ≠ terminator
  terminator_at : k < s.quads → s.quadAt (4 * k) = terminator

/-- An `EXTRACT` stops no later than at any other place where it stops. -/
theorem State.StopsAt.le {s : State} {k l : Nat} (hk : s.StopsAt k) (hl : s.StopsAt l) : k ≤ l :=
  Nat.le_of_not_lt fun hlt => hk.not_terminator l hlt (hl.terminator_at (Nat.lt_of_lt_of_le hlt hk.le_quads))

/-- An `EXTRACT` stops at one place only. -/
theorem State.StopsAt.unique {s : State} {k l : Nat} (hk : s.StopsAt k) (hl : s.StopsAt l) : k = l :=
  Nat.le_antisymm (hk.le hl) (hl.le hk)

/-- Where an `EXTRACT` stops depends on the number of whole quads and on what they carry. -/
theorem State.StopsAt.congr {s t : State} {k : Nat} (h : s.StopsAt k) (hquads : t.quads = s.quads)
    (hquadAt : ∀ a, t.quadAt a = s.quadAt a) : t.StopsAt k where
  le_quads := by
    rw [hquads]
    exact h.le_quads
  not_terminator j hj := by
    rw [hquadAt]
    exact h.not_terminator j hj
  terminator_at hk := by
    rw [hquadAt]
    exact h.terminator_at (hquads ▸ hk)

/-- Every state has a place where an `EXTRACT` of it stops: the least number that is no whole quad's or whose quad is
the terminator. -/
theorem State.exists_stopsAt (s : State) : ∃ k, s.StopsAt k := by
  have hend : ∃ k, k < s.quads → s.quadAt (4 * k) = terminator := ⟨s.quads, fun h => absurd h (lt_irrefl _)⟩
  refine ⟨Nat.find hend, Nat.find_min' hend fun h => absurd h (lt_irrefl _), fun j hj hz => ?_, Nat.find_spec hend⟩
  exact Nat.find_min hend hj fun _ => hz

/-- An idle `EXTRACT` of a legal buffer succeeds, appends the quads before the place where it stops, and keeps `CB` and
every operand (42_extract.md R88). -/
theorem exec_extract_of_stopsAt {s : State} {k : Nat} (hb : s.status.busy = false) (hl : s.len ≤ s.cfg.cbBytes)
    (hk : s.StopsAt k) : ∃ u, exec .extract s = .next u ∧
      u = { s with om := u.om, olen := k, cur := u.cur, opl := 1, status := ⟨false, true, true, false⟩ } ∧
      ∀ j < k, u.byte .om j = s.quadAt (4 * j) := by
  obtain ⟨l, hl, om', hexec, happended, hstop, hom⟩ := exec_extract_of_legal hb hl
  obtain rfl : l = k := State.StopsAt.unique ⟨hl, happended, hstop⟩ hk
  refine ⟨_, hexec, rfl, fun j hj => ?_⟩
  have hread : om'.read? j = some (s.quadAt (4 * j)) := (hom j).trans (if_pos hj)
  simp only [State.byte, State.mem, hread, Option.getD_some]

/-- Settles O18: a failing `EXTRACT` fails again; after a successful one the second stops at the same quad and appends
the same bytes. -/
theorem extractIsIdempotent : Obligations.ExtractIsIdempotent := by
  intro s t s' h hb' hcfg hlen hcb
  have hb := idle_of_exec h
  obtain hl | hl := Nat.lt_or_ge s.cfg.cbBytes s.len
  · obtain rfl := Host.Outcome.next.inj ((exec_extract_of_bad_length hb hl).symm.trans h)
    have hl' : s'.cfg.cbBytes < s'.len := by rw [hcfg, hlen]; exact hl
    exact ⟨_, exec_extract_of_bad_length hb' hl', rfl, rfl, fun j hj => absurd hj (Nat.not_lt_zero j)⟩
  · obtain ⟨k, hk⟩ := s.exists_stopsAt
    obtain ⟨t', hexec, hform, hbytes⟩ := exec_extract_of_stopsAt hb hl hk
    obtain rfl : t' = t := Host.Outcome.next.inj (hexec.symm.trans h)
    rw [hform] at hcfg hlen hcb
    have hquadAt (a : Nat) : s'.quadAt a = s.quadAt a := by
      simp only [State.quadAt, hcb]
      rfl
    have hl' : s'.len ≤ s'.cfg.cbBytes := by rw [hcfg, hlen]; exact hl
    have hk' : s'.StopsAt k := hk.congr (congrArg (· / 4) hlen) hquadAt
    obtain ⟨u, hexec', hform', hbytes'⟩ := exec_extract_of_stopsAt hb' hl' hk'
    have holen : t'.olen = k := by rw [hform]
    refine ⟨u, hexec', by rw [hform, hform'], by rw [hform', holen], fun j hj => ?_⟩
    rw [holen] at hj
    rw [hbytes' j hj, hbytes j hj, hquadAt]

/-- The units before `PLEN` are the payload's bytes (41_embed.md R73). -/
theorem unit_of_lt_plen {s : State} {i : Nat} (hi : i < s.plen) : s.unit i = s.byte .pm i := if_pos hi

/-- Unit `PLEN` is the terminator (41_embed.md R75). -/
theorem unit_plen (s : State) : s.unit s.plen = terminator := if_neg (lt_irrefl _)

/-- An `EXTRACT` of what `EMBED` leaves stops at the first unit that is the terminator. -/
theorem embedded_stopsAt {s : State} {z : Nat} (hq : s.plen < s.quads) (hz : z ≤ s.plen)
    (hunits : ∀ i < z, s.unit i ≠ terminator) (hunit : s.unit z = terminator) : (embedded s).StopsAt z where
  le_quads := by
    have hquads : (embedded s).quads = s.quads := by rw [embedded_form]; rfl
    omega
  not_terminator j hj := by
    rw [embedded_quadAt (by omega)]
    exact hunits j hj
  terminator_at _ := (embedded_quadAt hz).trans hunit

/-- An `EXTRACT` right after a successful `EMBED` succeeds and returns the units before the first terminator. -/
theorem exec_extract_embedded {s : State} {z : Nat} (hl : s.len ≤ s.cfg.cbBytes) (hq : s.plen < s.quads)
    (hz : z ≤ s.plen) (hunits : ∀ i < z, s.unit i ≠ terminator) (hunit : s.unit z = terminator) :
    ∃ u, exec .extract (embedded s) = .next u ∧ u.status.ok = true ∧ u.olen = z ∧
      ∀ j < z, u.byte .om j = s.unit j := by
  have hform := embedded_form s
  obtain ⟨u, hexec, huform, hbytes⟩ := exec_extract_of_stopsAt (s := embedded s) (by rw [hform])
    (by rw [hform]; exact hl) (embedded_stopsAt hq hz hunits hunit)
  refine ⟨u, hexec, by rw [huform], by rw [huform], fun j hj => ?_⟩
  rw [hbytes j hj, embedded_quadAt (by omega)]

/-- Settles O28: in a payload without a zero byte the first terminator is unit `PLEN` (`exec_extract_embedded`). -/
theorem roundTrip : Obligations.RoundTrip := by
  intro s hb hpm hcap hl
  have hq : s.plen < s.quads := by rw [State.quads]; omega
  have hunits (i : Nat) (hi : i < s.plen) : s.unit i ≠ terminator := by
    rw [unit_of_lt_plen hi]
    exact hpm i hi
  obtain ⟨u, hextract, hok, holen, hbytes⟩ := exec_extract_embedded hl hq le_rfl hunits (unit_plen s)
  refine ⟨_, u, exec_embed_of_fits hb hl hq, by rw [embedded_status], hextract, hok, holen, fun j hj => ?_⟩
  rw [hbytes j hj, unit_of_lt_plen hj]

end Sys2Proof.Machine
end

section
/-! # The three ways a command ends

Every command from an idle codec is accepted and ends in one of three outcomes, which the word of `STATUS` tells apart
(60_exceptions.md R100): success, `InsufficientCapacity`, `BadLength`. -/

namespace Sys2Proof.Machine

open Sys2Proof

/-- Either command on a buffer longer than `CB` reports `BadLength` (60_exceptions.md R102). -/
theorem exec_of_bad_length (i : Instr) {s : State} (hb : s.status.busy = false) (hl : s.cfg.cbBytes < s.len) :
    exec i s = .next (raiseCause .badLength (accept (encode i) s)) := by
  cases i with
  | embed => exact exec_embed_of_cause hb (if_pos hl)
  | extract => exact exec_extract_of_bad_length hb hl

/-- An idle `EXTRACT` of a legal buffer succeeds, writes `OM` below `OLEN` only, and beside that changes registers alone
(42_extract.md R88, 20_memory.md R36). -/
theorem exec_extract_frame {s : State} (hb : s.status.busy = false) (hl : s.len ≤ s.cfg.cbBytes) :
    ∃ t, exec .extract s = .next t ∧
      t = { s with om := t.om, olen := t.olen, cur := t.cur, opl := 1, status := ⟨false, true, true, false⟩ } ∧
      ∀ j, t.olen ≤ j → t.byte .om j = s.byte .om j := by
  obtain ⟨k, -, om', hexec, -, -, hom⟩ := exec_extract_of_legal hb hl
  refine ⟨_, hexec, rfl, fun j hj => ?_⟩
  have hread : om'.read? j = s.om.read? j := (hom j).trans (if_neg (Nat.not_lt.mpr hj))
  simp only [State.byte, State.mem, hread]

/-- Settles O20: a buffer longer than `CB` is reported by either command; on a legal one `EMBED` reports that the
payload does not fit or embeds it, and `EXTRACT` succeeds. -/
theorem commandEndsInOneOfThreeWays : Obligations.CommandEndsInOneOfThreeWays := by
  intro i s hb
  obtain hl | hl := Nat.lt_or_ge s.cfg.cbBytes s.len
  · refine ⟨_, exec_of_bad_length i hb hl, rfl, ?_, .inl ⟨hl, rfl, rfl, rfl, ?_⟩⟩
    all_goals rintro rfl; rfl
  cases i with
  | embed =>
    obtain hq | hq := Nat.lt_or_ge s.plen s.quads
    · have hform := embedded_form s
      refine ⟨_, exec_embed_of_fits hb hl hq, by rw [hform], fun _ => by rw [hform],
        .inr (.inr (.inl ⟨rfl, hl, hq, by rw [embedded_status]; rfl, by rw [hform], fun a ha => ?_⟩))⟩
      rw [embedded_byte, if_neg fun h => Nat.not_lt.mpr ha h.2]
    · exact ⟨_, exec_embed_of_not_fits hb hl hq, rfl, fun _ => rfl, .inr (.inl ⟨rfl, hl, hq, rfl, rfl, rfl⟩)⟩
  | extract =>
    obtain ⟨t, hexec, hform, hom⟩ := exec_extract_frame hb hl
    exact ⟨t, hexec, by rw [hform], (fun h => nomatch h),
      .inr (.inr (.inr ⟨rfl, hl, by rw [hform]; rfl, by rw [hform], hom⟩))⟩

/-- The word of `STATUS` with which a command ends: `BadLength` before `InsufficientCapacity`, and otherwise success
(60_exceptions.md R100, R106). -/
def outcomeWord (i : Instr) (s : State) : BitVec 4 :=
  if s.cfg.cbBytes < s.len then 0b1010#4
  else if i = .embed ∧ s.len / 4 ≤ s.plen then 0b0010#4
  else 0b0110#4

/-- A command from an idle codec ends with its `outcomeWord`. -/
theorem exec_outcomeWord (i : Instr) {s : State} (hb : s.status.busy = false) :
    ∃ t, exec i s = .next t ∧ t.status.word = outcomeWord i s := by
  obtain ⟨t, hexec, -, -, hways⟩ := commandEndsInOneOfThreeWays i s hb
  refine ⟨t, hexec, ?_⟩
  obtain ⟨hl, hword, -⟩ | ⟨hi, hl, hq, hword, -⟩ | ⟨-, hl, hq, hword, -⟩ | ⟨rfl, hl, hword, -⟩ := hways
  · rw [hword, outcomeWord, if_pos hl]
  · rw [hword, outcomeWord, if_neg (Nat.not_lt.mpr hl), if_pos ⟨hi, hq⟩]
  · rw [hword, outcomeWord, if_neg (Nat.not_lt.mpr hl), if_neg fun h => Nat.not_le.mpr hq h.2]
  · rw [hword, outcomeWord, if_neg (Nat.not_lt.mpr hl), if_neg fun h => nomatch h.1]

/-- The word of `InsufficientCapacity` is an `EMBED`'s, of a legal buffer that the payload does not fit
(60_exceptions.md R101). -/
theorem outcomeWord_eq_insufficientCapacity_iff (i : Instr) (s : State) :
    outcomeWord i s = 0b0010#4 ↔ i = .embed ∧ s.len ≤ s.cfg.cbBytes ∧ s.len / 4 ≤ s.plen := by
  unfold outcomeWord
  split
  case isTrue hl => simp [Nat.not_le.mpr hl]
  case isFalse hl =>
    split
    case isTrue h => simp [h, Nat.not_lt.mp hl]
    case isFalse h => simpa [Nat.not_lt.mp hl] using h

/-- Settles O21: the report is accept and `STATUS` alone, and its word is no other outcome's. -/
theorem insufficientCapacityIsReported : Obligations.InsufficientCapacityIsReported := by
  refine fun s hb => ⟨fun hl hq => exec_embed_of_not_fits hb hl hq, ?_, ?_⟩
  · obtain ⟨t, hexec, hword⟩ := exec_outcomeWord .embed hb
    refine ⟨t, hexec, ?_⟩
    rw [hword, outcomeWord_eq_insufficientCapacity_iff]
    simp
  · obtain ⟨t, hexec, hword⟩ := exec_outcomeWord .extract hb
    refine ⟨t, hexec, ?_⟩
    rw [hword, ne_eq, outcomeWord_eq_insufficientCapacity_iff]
    simp

/-- Settles O23: `outcomeWord` takes three values, and `LEN > CB_BYTES` decides before the payload is looked at. -/
theorem badLengthIsReportedFirst : Obligations.BadLengthIsReportedFirst := by
  constructor
  case left =>
    intro i s t h
    obtain ⟨u, hexec, hword⟩ := exec_outcomeWord i (idle_of_exec h)
    obtain rfl := Host.Outcome.next.inj (hexec.symm.trans h)
    rw [hword, outcomeWord]
    split
    · simp
    · split <;> simp
  case right =>
    intro s hb hl _
    obtain ⟨t, hexec, hword⟩ := exec_outcomeWord .embed hb
    exact ⟨t, hexec, hword.trans (if_pos hl)⟩

end Sys2Proof.Machine
end

section
/-! # The frame of an engine turn

A turn of the engine reports a cause, does one quad step of the operation in `OPL`, or completes (10_state.md R10). What
each of them leaves is said here once, in the form "`t` is `s` but for these fields". -/

namespace Sys2Proof.Machine

open Sys2Proof

/-- A turn with `OPL` at `EMBED` changes at most `STATUS`, `CUR` and `CB` (41_embed.md R73). -/
theorem engineTurn_embed_form {s t : State} (ho : s.opl = 0) (h : engineTurn s = .next t) :
    t = { s with status := t.status, cur := t.cur, cb := t.cb } := by
  obtain ⟨-, h⟩ | ⟨-, rfl⟩ := engineTurn_cases h
  · obtain ⟨c, rfl, -⟩ | ⟨-, -, -, -, rfl⟩ | ⟨ho', -⟩ | ⟨rfl, -⟩ := engineStep_cases h
    · rfl
    · rw [embedQuad_form]
    · rw [ho] at ho'
      exact absurd ho' (by decide)
    · rfl
  · rfl

/-- A turn with `OPL` at `EXTRACT` changes at most `STATUS`, `CUR`, `OLEN` and `OM` (42_extract.md R83). -/
theorem engineTurn_extract_form {s t : State} (ho : s.opl = 1) (h : engineTurn s = .next t) :
    t = { s with status := t.status, cur := t.cur, olen := t.olen, om := t.om } := by
  obtain ⟨st, cur, olen, om, hturn⟩ := engineTurn_extract ho
  obtain rfl := Host.Outcome.next.inj (hturn.symm.trans h)
  rfl

/-- A turn of either operation changes at most `STATUS`, `CUR`, `OLEN`, `CB` and `OM`. -/
theorem engineTurn_form {s t : State} (h : engineTurn s = .next t) :
    t = { s with status := t.status, cur := t.cur, olen := t.olen, cb := t.cb, om := t.om } := by
  obtain ho | ho := opl_zero_or_one s.opl
  · rw [engineTurn_embed_form ho h]
  · rw [engineTurn_extract_form ho h]

/-- A turn of an `EMBED` leaves every byte of `CB` outside the quad at `CUR` (41_embed.md R73). -/
theorem engineTurn_byte_cb {s t : State} (ho : s.opl = 0) (h : engineTurn s = .next t) {a : Nat}
    (ha : a < s.cur ∨ s.cur + 4 ≤ a) : t.byte .cb a = s.byte .cb a := by
  obtain ⟨-, h⟩ | ⟨-, rfl⟩ := engineTurn_cases h
  · obtain ⟨c, rfl, -⟩ | ⟨-, -, -, -, rfl⟩ | ⟨ho', -⟩ | ⟨rfl, -⟩ := engineStep_cases h
    · rw [raiseCause_byte]
    · rw [embedQuad_byte, if_neg (by omega)]
    · rw [ho] at ho'
      exact absurd ho' (by decide)
    · rw [complete_byte]
  · rfl

/-- A turn of an `EXTRACT` leaves every byte of `OM` but the one at `OLEN` (42_extract.md R83). -/
theorem engineTurn_byte_om {s t : State} (ho : s.opl = 1) (h : engineTurn s = .next t) {j : Nat}
    (hj : j ≠ s.olen) : t.byte .om j = s.byte .om j := by
  obtain ⟨-, h⟩ | ⟨-, rfl⟩ := engineTurn_cases h
  · obtain ⟨c, rfl, -⟩ | ⟨ho', -⟩ | ⟨-, -, -, -, -, rfl⟩ | ⟨rfl, -⟩ := engineStep_cases h
    · rw [raiseCause_byte]
    · rw [ho] at ho'
      exact absurd ho' (by decide)
    · rw [extractQuad_byte, if_neg fun h => hj h.2.2]
    · rw [complete_byte]
  · rfl

/-- An idle codec stays as it is (60_exceptions.md R115). -/
theorem engineTurn_idle {s : State} (hb : s.status.busy = false) : engineTurn s = .next s := by
  rw [engineTurn, if_neg (by simp [hb])]

/-- While `BUSY = 1` a turn of the engine is one of its steps. -/
theorem engineTurn_busy {s : State} (hb : s.status.busy = true) : engineTurn s = engineStep s := if_pos hb

/-- Settles O38: with no line left a step is a turn of the engine, and the frames above say what it keeps. -/
theorem engineTurnFrame : Obligations.EngineTurnFrame := by
  intro s t hs h
  rw [step_nil hs] at h
  have hform := engineTurn_form h
  refine ⟨by rw [hform], by rw [hform], by rw [hform], by rw [hform], by rw [hform], by rw [hform], by rw [hform],
    by rw [hform], fun ho => ?embed, fun ho => ?extract, fun hb => ?idle⟩
  case embed =>
    have hembed := engineTurn_embed_form ho h
    exact ⟨by rw [hembed], by rw [hembed], fun a ha => engineTurn_byte_cb ho h ha⟩
  case extract => exact ⟨by rw [engineTurn_extract_form ho h], fun j hj => engineTurn_byte_om ho h hj⟩
  case idle => exact Host.Outcome.next.inj (h.symm.trans (engineTurn_idle hb))

end Sys2Proof.Machine
end

section
/-! # The engine left to itself

A turn of the engine does not look at the host's script, so a `tick` line, a poll of `WAIT` and an empty script all leave
the engine the same turn. From where its operation stands, a busy engine takes some quad steps and then completes
(43_properties.md R99), and a command as one step is its accept followed by just these turns (10_state.md R10). -/

namespace Sys2Proof.Machine

open Sys2Proof

/-- A quad step of `EXTRACT` does not depend on the host's script. -/
theorem extractQuad_script (s : State) (l : List HostAct) :
    extractQuad { s with script := l } = { extractQuad s with script := l } := by
  have hquad (a : Nat) : State.quadAt { s with script := l } a = s.quadAt a := State.quadAt_congr rfl a
  by_cases hz : s.quadAt s.cur = terminator
  · rw [extractQuad_stop hz, extractQuad_stop ((hquad _).trans hz)]
  · rw [extractQuad_append hz, extractQuad_append (by rwa [hquad])]
    rfl

/-- An engine step of an `EMBED` does not depend on the host's script, and leaves it. -/
theorem embedTick_script (s : State) (l : List HostAct) :
    embedTick { s with script := l } = andThen (embedTick s) fun t => .next { t with script := l } := by
  have hcause : embedCause { s with script := l } = embedCause s := rfl
  have hfault : embedFault? { s with script := l } = embedFault? s := rfl
  simp only [embedTick, embedStep, hcause, hfault]
  cases embedCause s with
  | some c => rfl
  | none =>
    dsimp only
    split
    · cases embedFault? s <;> rfl
    · rfl

/-- An engine step of an `EXTRACT` does not depend on the host's script, and leaves it. -/
theorem extractTick_script (s : State) (l : List HostAct) :
    extractTick { s with script := l } = andThen (extractTick s) fun t => .next { t with script := l } := by
  have hcause : extractCause { s with script := l } = extractCause s := rfl
  have hfault : extractFault? { s with script := l } = extractFault? s := rfl
  have hstopped : extractStopped { s with script := l } = extractStopped s := rfl
  simp only [extractTick, extractStep, hcause, hfault, hstopped, extractQuad_script]
  cases extractCause s with
  | some c => rfl
  | none =>
    dsimp only
    split
    · cases extractFault? s <;> rfl
    · rfl

/-- A turn of the engine does not depend on the host's script, and leaves it. -/
theorem engineTurn_script (s : State) (l : List HostAct) :
    engineTurn { s with script := l } = andThen (engineTurn s) fun t => .next { t with script := l } := by
  simp only [engineTurn, engineStep, embedTick_script, extractTick_script]
  split
  · split <;> rfl
  · rfl

/-- `n` turns of the engine, stopping at the first fault. -/
def engineTurns : Nat → State → Host.Outcome State Fault Refusal
  | 0, s => .next s
  | n + 1, s => andThen (engineTurn s) (engineTurns n)

/-- What every turn keeps, any number of turns keeps. -/
theorem engineTurns_invariant {P : State → Prop} (hturn : ∀ u v, P u → engineTurn u = .next v → P v) {n : Nat}
    {s t : State} (hs : P s) (h : engineTurns n s = .next t) : P t := by
  induction n generalizing s with
  | zero => exact Host.Outcome.next.inj h ▸ hs
  | succ n ih =>
    obtain ⟨m, hm, h⟩ := andThen_eq_next h
    exact ih (hturn s m hs hm) h

/-- If every state with `P` has a turn that keeps `P`, it has any number of them. -/
theorem exists_engineTurns {P : State → Prop} (hturn : ∀ u, P u → ∃ v, engineTurn u = .next v ∧ P v) (n : Nat)
    {s : State} (hs : P s) : ∃ t, engineTurns n s = .next t ∧ P t := by
  induction n generalizing s with
  | zero => exact ⟨s, rfl, hs⟩
  | succ n ih =>
    obtain ⟨m, hm, hP⟩ := hturn s hs
    obtain ⟨t, ht, hP⟩ := ih hP
    exact ⟨t, by rw [engineTurns, hm, andThen_next, ht], hP⟩

/-- As long as each step is a turn of the engine, running is taking turns. -/
theorem run_eq_engineTurns {n : Nat} {s : State}
    (h : ∀ k < n, ∀ m, engineTurns k s = .next m → step m = engineTurn m) : run n s = engineTurns n s := by
  induction n generalizing s with
  | zero => rfl
  | succ n ih =>
    rw [run, engineTurns, h 0 n.succ_pos s rfl]
    cases hm : engineTurn s with
    | next m => exact ih fun k hk u hu => h (k + 1) (Nat.succ_lt_succ hk) u (by rw [engineTurns, hm, andThen_next, hu])
    | fault f => rfl
    | refused r => rfl

/-- Any number of turns leaves the script. -/
theorem engineTurns_keep_script {n : Nat} {s t : State} (h : engineTurns n s = .next t) : t.script = s.script :=
  engineTurns_invariant (P := fun u => u.script = s.script)
    (fun u v hu huv => by rw [engineTurn_form huv]; exact hu) rfl h

/-- Any number of turns of an `EXTRACT` leaves `CB` (20_memory.md R36). -/
theorem engineTurns_keep_cb {n : Nat} {s t : State} (ho : s.opl = 1) (h : engineTurns n s = .next t) :
    t.cb = s.cb := by
  have hkeep : t.opl = 1 ∧ t.cb = s.cb := by
    refine engineTurns_invariant (P := fun u => u.opl = 1 ∧ u.cb = s.cb) (fun u v hu huv => ?_) ⟨ho, rfl⟩ h
    rw [engineTurn_extract_form hu.1 huv]
    exact hu
  exact hkeep.2

/-- With no line left the engine has every turn (70_reset_and_hazards.md R130). -/
theorem run_of_script_nil {n : Nat} {s : State} (hs : s.script = []) : run n s = engineTurns n s :=
  run_eq_engineTurns fun _ _ _ hm => step_nil ((engineTurns_keep_script hm).trans hs)

/-- `n` lines `tick` are `n` turns of the engine. -/
theorem run_ticks {n : Nat} {s : State} {rest : List HostAct} (hs : s.script = List.replicate n .tick ++ rest) :
    run n s = engineTurns n { s with script := rest } := by
  induction n generalizing s with
  | zero =>
    obtain rfl : s.script = rest := hs
    rfl
  | succ n ih =>
    rw [run, engineTurns, step_tick (rest := List.replicate n .tick ++ rest) hs, engineTurn_script s (_ ++ _),
      engineTurn_script s rest, andThen_assoc, andThen_assoc]
    exact congrArg (andThen (engineTurn s)) (funext fun m =>
      ih (s := { m with script := List.replicate n .tick ++ rest }) rfl)

/-- A poll of `WAIT` that finds `DONE = 0` leaves the engine a turn and keeps its line (30_encoding.md R56). -/
theorem step_wait_of_not_done {s : State} {rest : List HostAct} (hs : s.script = .wait :: rest)
    (hd : s.status.done = false) : step s = engineTurn s := by
  rw [step_eq_perform hs rfl rfl, perform, waitTurn, if_neg (by simp [hd]), engineTurn_script, andThen_assoc]
  cases hm : engineTurn s with
  | next m =>
    have hscript : m.script = .wait :: rest := by rw [engineTurn_form hm]; exact hs
    simp only [andThen_next, ← hscript]
  | fault f => rfl
  | refused r => rfl

/-- A poll of `WAIT` that finds `DONE = 1` passes its line and changes nothing (30_encoding.md R56). -/
theorem step_wait_of_done {s : State} {rest : List HostAct} (hs : s.script = .wait :: rest)
    (hd : s.status.done = true) : step s = .next { s with script := rest } := by
  rw [step_eq_perform hs rfl rfl, perform, waitTurn, if_pos (by exact hd)]

/-- Settles O45: a poll passes the line when `DONE = 1`, and otherwise is a turn of the engine, which leaves the
script. -/
theorem waitPollsUntilDone : Obligations.WaitPollsUntilDone := by
  intro s rest hs
  refine ⟨step_wait_of_done hs, fun hd t h => ?_⟩
  rw [step_wait_of_not_done hs hd] at h
  rw [engineTurn_form h]

/-- Left to itself the engine takes `q` turns from `s` that leave `STATUS` as it is, and the turn after them completes
the operation and leaves `t` (43_properties.md R99). -/
inductive Completes : Nat → State → State → Prop where
  /-- The turn that completes the operation. -/
  | last {s t : State} (turn : engineTurn s = .next t) (busy : t.status.busy = false) (done : t.status.done = true) :
      Completes 0 s t
  /-- A quad step before it. -/
  | quad {q : Nat} {s m t : State} (turn : engineTurn s = .next m) (status : m.status = s.status)
      (later : Completes q m t) : Completes (q + 1) s t

/-- The operation ends after `q + 1` turns. -/
theorem Completes.turns {q : Nat} {s t : State} (h : Completes q s t) : engineTurns (q + 1) s = .next t := by
  induction h with
  | last turn _ _ => simp only [engineTurns, turn, andThen_next]
  | quad turn _ _ ih => rw [engineTurns, turn, andThen_next, ih]

/-- Before its end every turn leaves `STATUS` as it was. -/
theorem Completes.before {q : Nat} {s t : State} (h : Completes q s t) {k : Nat} (hk : k ≤ q) :
    ∃ m, engineTurns k s = .next m ∧ m.status = s.status := by
  induction h generalizing k with
  | @last s t _ _ _ =>
    obtain rfl := Nat.le_zero.mp hk
    exact ⟨s, rfl, rfl⟩
  | @quad q s m t turn status _ ih =>
    cases k with
    | zero => exact ⟨s, rfl, rfl⟩
    | succ k =>
      obtain ⟨u, hu, hstatus⟩ := ih (Nat.le_of_succ_le_succ hk)
      exact ⟨u, by rw [engineTurns, turn, andThen_next, hu], hstatus.trans status⟩

/-- At its end the codec is idle and `DONE = 1`. -/
theorem Completes.idle_and_done {q : Nat} {s t : State} (h : Completes q s t) :
    t.status.busy = false ∧ t.status.done = true := by
  induction h with
  | last _ busy done => exact ⟨busy, done⟩
  | quad _ _ _ ih => exact ih

/-- What every turn keeps holds at the end. -/
theorem Completes.invariant {P : State → Prop} (hturn : ∀ u v, P u → engineTurn u = .next v → P v) {q : Nat}
    {s t : State} (h : Completes q s t) (hs : P s) : P t := engineTurns_invariant hturn hs h.turns

/-- An engine that completes has a turn to take. -/
theorem Completes.exists_turn {q : Nat} {s t : State} (h : Completes q s t) : ∃ m, engineTurn s = .next m := by
  cases h with
  | last turn _ _ => exact ⟨_, turn⟩
  | quad turn _ _ => exact ⟨_, turn⟩

/-- How the engine completes does not depend on the host's script. -/
theorem Completes.withScript {q : Nat} {s t : State} (h : Completes q s t) (l : List HostAct) :
    Completes q { s with script := l } { t with script := l } := by
  induction h with
  | last turn busy done => exact .last (by rw [engineTurn_script, turn, andThen_next]) busy done
  | @quad q s m t turn status _ ih =>
    exact .quad (m := { m with script := l }) (by rw [engineTurn_script, turn, andThen_next]) status ih

/-- An operation that reports a cause does so at once (60_exceptions.md R101, R102). -/
theorem completes_of_cause {s : State} {c : Cause} (hb : s.status.busy = true)
    (h : (s.opl = 0 ∧ embedCause s = some c) ∨ (s.opl = 1 ∧ extractCause s = some c)) :
    Completes 0 s (raiseCause c s) := by
  refine .last ?_ rfl rfl
  obtain ⟨ho, hc⟩ | ⟨ho, hc⟩ := h
  · rw [engineTurn_busy hb, engineStep_embed_cause ho hc]
  · rw [engineTurn_busy hb, engineStep_extract_cause ho hc]

/-- An `EMBED` is in progress and past its checks, at the start of a quad (41_embed.md R71 to R73). -/
structure State.EmbedPastChecks (s : State) : Prop where
  busy : s.status.busy = true
  opl : s.opl = 0
  len_le : s.len ≤ s.cfg.cbBytes
  fits : s.plen < s.quads
  aligned : s.cur % 4 = 0

/-- A quad step of an `EMBED` past its checks ends at the start of the next quad. -/
theorem State.EmbedPastChecks.after_embedQuad {s : State} (h : s.EmbedPastChecks) : (embedQuad s).EmbedPastChecks := by
  have h4 := h.aligned
  rw [embedQuad_form]
  exact ⟨h.busy, h.opl, h.len_le, h.fits, show (s.cur + 4) % 4 = 0 by omega⟩

/-- With a unit left, a turn of an `EMBED` past its checks is a quad step. -/
theorem State.EmbedPastChecks.engineTurn_quad {s : State} (h : s.EmbedPastChecks) (hc : s.cur / 4 ≤ s.plen) :
    engineTurn s = .next (embedQuad s) := by
  rw [engineTurn_busy h.busy, engineStep_embed_quad h.opl h.len_le h.fits h.aligned hc]

/-- After `n` turns an `EMBED` past its checks that had as many units left has done `n` quad steps (41_embed.md R73). -/
theorem State.EmbedPastChecks.turns {n : Nat} {s : State} (h : s.EmbedPastChecks)
    (hn : s.cur / 4 + n ≤ s.plen + 1) : engineTurns n s = .next (embedQuad^[n] s) := by
  induction n generalizing s with
  | zero => rfl
  | succ n ih =>
    have hn' : (embedQuad s).cur / 4 + n ≤ (embedQuad s).plen + 1 := by
      rw [embedQuad_form]
      dsimp only
      omega
    rw [engineTurns, h.engineTurn_quad (by omega), andThen_next, Function.iterate_succ_apply]
    exact ih h.after_embedQuad hn'

/-- An `EMBED` past its checks completes after one quad step for each unit left (41_embed.md R73). -/
theorem State.EmbedPastChecks.completes {n : Nat} {s : State} (h : s.EmbedPastChecks)
    (hn : s.cur / 4 + n = s.plen + 1) : Completes n s (complete true (embedQuad^[n] s)) := by
  induction n generalizing s with
  | zero =>
    refine .last ?_ rfl rfl
    rw [engineTurn_busy h.busy, engineStep_embed_done h.opl h.len_le h.fits (by omega)]
    rfl
  | succ n ih =>
    have hn' : (embedQuad s).cur / 4 + n = (embedQuad s).plen + 1 := by
      rw [embedQuad_form]
      dsimp only
      omega
    exact .quad (h.engineTurn_quad (by omega)) (by rw [embedQuad_form]) (ih h.after_embedQuad hn')

/-- An accepted `EMBED` whose buffer is legal and holds the payload is past its checks. -/
theorem embedPastChecks_accept {s : State} (hl : s.len ≤ s.cfg.cbBytes) (hq : s.plen < s.quads) :
    (accept 0 s).EmbedPastChecks := ⟨rfl, rfl, hl, hq, rfl⟩

/-- An `EXTRACT` past its check that has appended every quad it read completes where its loop ends, after at most one
quad step for each whole quad left (42_extract.md R82). -/
theorem completes_extract {n : Nat} {s : State} (hb : s.status.busy = true) (ho : s.opl = 1)
    (hl : s.len ≤ s.cfg.cbBytes) (hc : s.cur = 4 * s.olen) (hn : s.olen + n = s.quads) :
    ∃ q ≤ n, ∃ t, extractLoop n s = .next t ∧ Completes q s (complete true t) := by
  induction n generalizing s with
  | zero =>
    rw [State.quads] at hn
    refine ⟨0, le_rfl, s, rfl, .last ?_ rfl rfl⟩
    rw [engineTurn_busy hb, engineStep_extract_done ho hl (.inr (by omega))]
  | succ n ih =>
    have hg : s.cur + 4 ≤ s.len := by rw [State.quads] at hn; omega
    have hturn : engineTurn s = .next (extractQuad s) := by
      rw [engineTurn_busy hb, engineStep_extract_quad ho hl hc hg]
    have hform := extractQuad_form s
    have hstatus : (extractQuad s).status = s.status := by rw [hform]
    rw [extractLoop, if_pos hg, extractStep_in_range hl hg (by omega), andThen_next]
    by_cases hz : s.quadAt s.cur = terminator
    · refine ⟨1, by omega, extractQuad s, if_pos hz, .quad hturn hstatus (.last ?_ rfl rfl)⟩
      rw [engineTurn_busy (by rw [hstatus]; exact hb),
        engineStep_extract_done (by rw [hform]; exact ho) (by rw [hform]; exact hl) (.inl ?_)]
      rw [extractQuad_stop hz]
      simp only
      omega
    · have happend := extractQuad_append hz
      have hcur : (extractQuad s).cur = s.cur + 4 := by rw [happend]
      have holen : (extractQuad s).olen = s.olen + 1 := by rw [happend]
      have hquads : (extractQuad s).quads = s.quads := by rw [happend]; rfl
      obtain ⟨q, hqn, t, hloop, hlater⟩ := ih (s := extractQuad s) (by rw [hstatus]; exact hb)
        (by rw [hform]; exact ho) (by rw [hform]; exact hl) (by omega) (by omega)
      exact ⟨q + 1, by omega, t, by rw [if_neg hz, hloop], .quad hturn hstatus hlater⟩

/-- A command as one step is its accept and the engine's turns to the end, at most `QMAX` quad steps among them
(70_reset_and_hazards.md R128). -/
theorem exec_completes (i : Instr) {s : State} (hb : s.status.busy = false) :
    ∃ q ≤ s.cfg.qmax, ∃ t, exec i s = .next t ∧ Completes q (accept (encode i) s) t := by
  have hquads (hl : s.len ≤ s.cfg.cbBytes) : s.quads ≤ s.cfg.qmax := Nat.div_le_div_right hl
  cases i with
  | embed =>
    obtain ⟨c, hc, hexec⟩ | ⟨hc, hexec⟩ := exec_embed_cases hb
    · exact ⟨0, Nat.zero_le _, _, hexec, completes_of_cause rfl (.inl ⟨rfl, hc⟩)⟩
    · obtain ⟨hl, hq⟩ := (embedCause_eq_none s).mp hc
      exact ⟨s.plen + 1, le_trans hq (hquads hl), _, hexec, (embedPastChecks_accept hl hq).completes (by simp)⟩
  | extract =>
    cases hc : extractCause s with
    | some c =>
      have hcause : extractCause (accept 1 s) = some c := hc
      refine ⟨0, Nat.zero_le _, _, ?_, completes_of_cause rfl (.inr ⟨rfl, hcause⟩)⟩
      rw [exec_extract_of_idle hb, extractAccepted, hcause]
      rfl
    | none =>
      have hl := (extractCause_eq_none s).mp hc
      have hcause : extractCause (accept 1 s) = none := hc
      obtain ⟨q, hq, t, hloop, hend⟩ :=
        completes_extract (n := s.quads) (s := accept 1 s) rfl rfl hl rfl (Nat.zero_add _)
      have hquads' : (accept 1 s).quads = s.quads := rfl
      refine ⟨q, le_trans hq (hquads hl), _, ?_, hend⟩
      rw [exec_extract_of_idle hb, extractAccepted, hcause, hquads', hloop]
      rfl

/-- Writing `CMD` and then polling: the accept, and one turn of the engine for each poll, as long as the operation that
completes after `q` quad steps is not over (30_encoding.md R56). -/
theorem run_polls {s t : State} {w q n : Nat} {i : Instr} {rest : List HostAct} (hb : s.status.busy = false)
    (hd : decode w = .ok i) (hs : s.script = .wr 0 w :: .wait :: rest)
    (hend : Completes q (accept (encode i) { s with script := .wait :: rest }) t) (hn : n ≤ q + 1) :
    run (n + 1) s = engineTurns n (accept (encode i) { s with script := .wait :: rest }) := by
  rw [run, step_wr_cmd hb hs hd, andThen_next]
  refine run_eq_engineTurns fun k hk m hm => step_wait_of_not_done (engineTurns_keep_script hm) ?_
  obtain ⟨m', hm', hstatus⟩ := hend.before (k := k) (by omega)
  obtain rfl := Host.Outcome.next.inj (hm'.symm.trans hm)
  rw [hstatus]
  rfl

/-- Settles O32: the accept, the turns of `exec_completes` under the polls of `WAIT`, and the poll that finds
`DONE = 1`. -/
theorem stepwiseOperationIsTheAtomicOne : Obligations.StepwiseOperationIsTheAtomicOne := by
  intro s w i rest hb hd hs
  obtain ⟨q, hq, t, hexec, hend'⟩ := exec_completes i (s := { s with script := rest }) hb
  have hscript : t.script = rest := engineTurns_keep_script hend'.turns
  have hend := hend'.withScript (.wait :: rest)
  refine ⟨q + 3, Nat.add_le_add_right hq 3, ?whole, fun k hk0 hk => ?between⟩
  case whole =>
    have hpolls := (run_polls hb hd hs hend le_rfl).trans hend.turns
    rw [run_add (q + 2) 1, hpolls, hexec, andThen_next, run_one, step_wait_of_done rfl hend.idle_and_done.2, ← hscript]
  case between =>
    obtain ⟨k, rfl⟩ := Nat.exists_eq_add_of_lt hk0
    rw [Nat.zero_add] at hk ⊢
    obtain ⟨m, hm, hstatus⟩ := hend.before (k := k) (by omega)
    refine ⟨m, (run_polls hb hd hs hend (by omega)).trans hm, by rw [hstatus]; rfl, ?_⟩
    rintro rfl a
    exact State.byte_congr (sp := .cb) (engineTurns_keep_cb rfl hm) a

end Sys2Proof.Machine
end

section
/-! # What the lines of a script answer

A line is refused when the interface does not have it, then when the contract forbids it; one that is neither answers a
next state, or is a word that is no command, or leaves the engine a turn that faults (70_reset_and_hazards.md R125 to
R127). -/

namespace Sys2Proof.Machine

open Sys2Proof

/-- A turn of the engine is never refused. -/
theorem engineTurn_outcome (s : State) : (∃ t, engineTurn s = .next t) ∨ ∃ f, engineTurn s = .fault f := by
  obtain ho | ho := opl_zero_or_one s.opl
  case inr =>
    obtain ⟨st, cur, olen, om, hturn⟩ := engineTurn_extract ho
    exact .inl ⟨_, hturn⟩
  cases hb : s.status.busy with
  | false => exact .inl ⟨s, engineTurn_idle hb⟩
  | true =>
    rw [engineTurn_busy hb, engineStep, if_pos ho, embedTick]
    cases embedCause s with
    | some c => exact .inl ⟨_, rfl⟩
    | none =>
      dsimp only
      split
      · rw [embedStep]
        cases embedFault? s with
        | some f => exact .inr ⟨f, rfl⟩
        | none => exact .inl ⟨_, rfl⟩
      · exact .inl ⟨_, rfl⟩

/-- A move that the contract ties to `BUSY = 0` is made while idle (70_reset_and_hazards.md R125). -/
theorem idle_of_contractAllows {s : State} {a : HostAct} (ha : contractAllows s a = !s.status.busy)
    (h : contractAllows s a = true) : s.status.busy = false := by simpa [ha] using h

/-- A write of a register that the interface has (30_encoding.md R54). -/
theorem wf_wr_iff {c : Config} {reg v : Nat} :
    (HostAct.wr reg v).wf c = true ↔ reg = 0 ∨ ((reg = 2 ∨ reg = 3) ∧ v < 2 ^ c.lw) := by
  simp [HostAct.wf]

/-- A read of a register that the interface has (30_encoding.md R54). -/
theorem wf_rd_iff {c : Config} {reg : Nat} :
    (HostAct.rd reg).wf c = true ↔ reg = 1 ∨ reg = 2 ∨ reg = 3 ∨ reg = 4 := by
  simp [HostAct.wf, or_assoc]

/-- A write of a byte that the interface has: of `CB` or `PM`, inside the space (20_memory.md R30). -/
theorem wf_wb_iff {c : Config} {sp : Space} {off : Nat} {b : Byte} :
    (HostAct.wb sp off b).wf c = true ↔ sp ≠ .om ∧ off < c.size sp := by
  cases sp <;> simp [HostAct.wf]

/-- A read of a byte that the interface has: inside its space (20_memory.md R30). -/
theorem wf_rb_iff {c : Config} {sp : Space} {off : Nat} :
    (HostAct.rb sp off).wf c = true ↔ off < c.size sp := by
  simp [HostAct.wf]

/-- A write of `CMD` is accepted or names no command (30_encoding.md R53). -/
theorem startCommand_outcome (w : Nat) (s : State) :
    (∃ t, startCommand w s = .next t) ∨ startCommand w s = .refused .noSuchCommand := by
  unfold startCommand
  cases decode w with
  | ok i => exact .inl ⟨_, rfl⟩
  | error e => exact .inr rfl

/-- While idle a called word ends as a command or names none (30_encoding.md R53). -/
theorem callCommand_outcome (w : Nat) {s : State} (hb : s.status.busy = false) :
    (∃ t, callCommand w s = .next t) ∨ callCommand w s = .refused .noSuchCommand := by
  unfold callCommand
  cases decode w with
  | ok i =>
    obtain ⟨q, -, t, hexec, -⟩ := exec_completes i hb
    exact .inl ⟨t, hexec⟩
  | error e => exact .inr rfl

/-- A poll of `WAIT` answers a next state, or leaves the engine a turn that faults. -/
theorem waitTurn_outcome (s : State) :
    (∃ t, waitTurn s = .next t) ∨ ∃ f, engineTurn s = .fault f ∧ waitTurn s = .fault f := by
  unfold waitTurn
  split
  · exact .inl ⟨s, rfl⟩
  · obtain ⟨t, hturn⟩ | ⟨f, hturn⟩ := engineTurn_outcome s
    · exact .inl ⟨_, by rw [hturn]; rfl⟩
    · exact .inr ⟨f, hturn, by rw [hturn]; rfl⟩

/-- All that a line can answer which the interface has and the contract allows. -/
theorem perform_outcome {a : HostAct} {s : State} (hwf : a.wf s.cfg = true) (hc : contractAllows s a = true) :
    (∃ t, perform a s = .next t) ∨ perform a s = .refused .noSuchCommand ∨
      ∃ f, engineTurn s = .fault f ∧ perform a s = .fault f := by
  cases a with
  | wr reg v =>
    obtain rfl | ⟨rfl | rfl, -⟩ := wf_wr_iff.mp hwf
    · exact (startCommand_outcome v s).imp_right .inl
    · exact .inl ⟨_, rfl⟩
    · exact .inl ⟨_, rfl⟩
  | rd reg => obtain rfl | rfl | rfl | rfl := wf_rd_iff.mp hwf <;> exact .inl ⟨_, rfl⟩
  | wb sp off b => exact .inl ⟨_, rfl⟩
  | rb sp off => exact .inl ⟨_, rfl⟩
  | reset drawn => exact .inl ⟨_, rfl⟩
  | call w => exact (callCommand_outcome w (idle_of_contractAllows rfl hc)).imp_right .inl
  | wait => exact (waitTurn_outcome s).imp_right .inr
  | tick => exact (engineTurn_outcome s).imp_right fun ⟨f, hf⟩ => .inr ⟨f, hf, hf⟩

/-- A line that the interface does not have is refused as such, whatever the contract says (20_memory.md R30). -/
theorem step_of_not_wf {s : State} {a : HostAct} {rest : List HostAct} (hs : s.script = a :: rest)
    (hwf : a.wf s.cfg = false) : step s = .refused .noSuchAccess := by
  rw [step_cons hs, hostMove, if_neg (by simpa [accessExists] using hwf)]

/-- A line that the interface has and the contract forbids is refused as a breach (70_reset_and_hazards.md R127). -/
theorem step_of_not_allowed {s : State} {a : HostAct} {rest : List HostAct} (hs : s.script = a :: rest)
    (hwf : a.wf s.cfg = true) (hc : contractAllows s a = false) : step s = .refused .contractBreach := by
  have hc' : contractAllows { s with script := rest } a = false := by cases a <;> exact hc
  rw [step_cons hs, hostMove, if_pos (by exact hwf), if_neg (by simp [hc'])]

/-- A line that the interface has and the contract allows is performed. -/
theorem step_of_allowed {s : State} {a : HostAct} {rest : List HostAct} (hs : s.script = a :: rest)
    (hwf : a.wf s.cfg = true) (hc : contractAllows s a = true) : step s = perform a { s with script := rest } :=
  step_eq_perform hs hwf (by cases a <;> exact hc)

/-- All that a line of the script can answer, and when (70_reset_and_hazards.md R125 to R127). -/
theorem step_cons_outcome {s : State} {a : HostAct} {rest : List HostAct} (hs : s.script = a :: rest) :
    (a.wf s.cfg = false ∧ step s = .refused .noSuchAccess) ∨
    (a.wf s.cfg = true ∧ contractAllows s a = false ∧ step s = .refused .contractBreach) ∨
    (a.wf s.cfg = true ∧ contractAllows s a = true ∧
      ((∃ t, step s = .next t) ∨ step s = .refused .noSuchCommand ∨
        ∃ f, engineTurn s = .fault f ∧ step s = .fault f)) := by
  cases hwf : a.wf s.cfg with
  | false => exact .inl ⟨rfl, step_of_not_wf hs hwf⟩
  | true =>
    cases hc : contractAllows s a with
    | false => exact .inr (.inl ⟨rfl, rfl, step_of_not_allowed hs hwf hc⟩)
    | true =>
      have hc' : contractAllows { s with script := rest } a = true := by cases a <;> exact hc
      refine .inr (.inr ⟨rfl, rfl, ?_⟩)
      rw [step_of_allowed hs hwf hc]
      refine (perform_outcome (s := { s with script := rest }) hwf hc').imp_right (.imp_right fun ⟨f, hturn, hf⟩ => ?_)
      refine ⟨f, ?_, hf⟩
      rw [engineTurn_script] at hturn
      obtain ⟨t, hnext⟩ | ⟨f', hfault⟩ := engineTurn_outcome s
      · rw [hnext] at hturn
        cases hturn
      · rw [hfault] at hturn ⊢
        exact hturn

/-- Settles O40: a line is refused as `noSuchAccess` exactly when it is not well formed, said kind by kind. -/
theorem accessesTheInterfaceLacksAreRefused : Obligations.AccessesTheInterfaceLacksAreRefused := by
  intro s a rest hs
  have hiff : step s = .refused .noSuchAccess ↔ ¬ a.wf s.cfg = true := by
    obtain ⟨hwf, h⟩ | ⟨hwf, -, h⟩ | ⟨hwf, -, ⟨t, h⟩ | h | ⟨f, -, h⟩⟩ := step_cons_outcome hs <;> simp [hwf, h]
  rw [hiff]
  cases a with
  | wr reg v => simp [wf_wr_iff]; omega
  | rd reg => simp [wf_rd_iff]; omega
  | wb sp off b => simp [wf_wb_iff]; tauto
  | rb sp off => simp [wf_rb_iff]
  | reset drawn => simp [HostAct.wf]
  | call w => simp [HostAct.wf]
  | wait => simp [HostAct.wf]
  | tick => simp [HostAct.wf]

/-- Settles O39: a line that the interface has is refused as a breach exactly when the contract forbids it, said kind by
kind for `BUSY = 1`. -/
theorem contractBreachesAreRefused : Obligations.ContractBreachesAreRefused := by
  intro s a rest hs hb hwf
  have hiff : step s = .refused .contractBreach ↔ ¬ contractAllows s a = true := by
    obtain ⟨hwf', -⟩ | ⟨-, hc, h⟩ | ⟨-, hc, ⟨t, h⟩ | h | ⟨f, -, h⟩⟩ := step_cons_outcome hs
    · simp [hwf] at hwf'
    all_goals simp [hc, h]
  rw [hiff]
  cases a with
  | rb sp off => simp [contractAllows, hb]; tauto
  | _ => simp [contractAllows, hb]

end Sys2Proof.Machine
end

section
/-! # The host's moves, one by one

What each line of a script does when it is performed: the command words (30_encoding.md R51), the registers and bytes the
host reads and writes (30_encoding.md R54), and reset (70_reset_and_hazards.md R120). -/

namespace Sys2Proof.Machine

open Sys2Proof

/-- A word with a bit above bit 0 is no command's (30_encoding.md R50). -/
theorem decode_of_two_le {w : Nat} (hw : 2 ≤ w) : decode w = .error .bitsAboveOp := by
  rw [decode, if_neg (by omega), if_neg (by omega)]

/-- A word that decodes to a command is its word. -/
theorem eq_encode_of_decode {w : Nat} {i : Instr} (h : decode w = .ok i) : w = (encode i).toNat := by
  obtain rfl | rfl | hw : w = 0 ∨ w = 1 ∨ 2 ≤ w := by omega
  · obtain rfl := Except.ok.inj ((decode_encode .embed).symm.trans h)
    rfl
  · obtain rfl := Except.ok.inj ((decode_encode .extract).symm.trans h)
    rfl
  · rw [decode_of_two_le hw] at h
    cases h

/-- Settles O2: both directions of the opcode map. -/
theorem decodeAndEncodeAgree : Obligations.DecodeAndEncodeAgree :=
  ⟨decode_encode, fun _ _ => eq_encode_of_decode⟩

/-- Settles O3: the decoder rejects the word, and so does either line that hands it a word while idle. -/
theorem wordsAboveOneBitAreRejected : Obligations.WordsAboveOneBitAreRejected := by
  intro w hw
  have hd := decode_of_two_le hw
  refine ⟨hd, fun s rest hb hs => ?_⟩
  obtain hs | hs := hs
  · rw [step_of_allowed hs rfl (by simp [contractAllows, hb]), perform, callCommand, hd]
  · rw [step_of_allowed hs (by rfl) (by simp [contractAllows, hb]), perform, writeReg, if_pos rfl, startCommand, hd]

/-- A command is refused as a breach of the contract while busy (70_reset_and_hazards.md R127). -/
theorem exec_of_busy (i : Instr) {s : State} (hb : s.status.busy = true) : exec i s = .refused .contractBreach := by
  cases i with
  | embed => exact if_pos hb
  | extract => exact if_pos hb

/-- Settles O4: while idle the line is performed, and while busy both sides refuse the same breach. -/
theorem stepRunsTheDecodedCommand : Obligations.StepRunsTheDecodedCommand := by
  intro s w i rest hs hd
  cases hb : s.status.busy with
  | false => rw [step_of_allowed hs rfl (by simp [contractAllows, hb]), perform, callCommand, hd]
  | true => rw [step_of_not_allowed hs rfl (by simp [contractAllows, hb]), exec_of_busy i (by exact hb)]

/-- Settles O5: `accept` of the decoded command, whose `OP` is 1 for `EXTRACT` alone. -/
theorem writeOfCmdAcceptsTheCommand : Obligations.WriteOfCmdAcceptsTheCommand := by
  intro s w i rest hs hd hb
  rw [step_wr_cmd hb hs hd]
  cases i with
  | embed => rfl
  | extract => rfl

/-- Settles O41: while idle the write is allowed, and a value that fits is one the interface has. -/
theorem hostWritesLengthRegisters : Obligations.HostWritesLengthRegisters := by
  intro s v rest hb hv
  refine ⟨fun hs => ?_, fun hs => ?_⟩
  · rw [step_of_allowed hs (wf_wr_iff.mpr (.inr ⟨.inl rfl, hv⟩)) (by simp [contractAllows, hb])]
    rfl
  · rw [step_of_allowed hs (wf_wr_iff.mpr (.inr ⟨.inr rfl, hv⟩)) (by simp [contractAllows, hb])]
    rfl

/-- The word of `STATUS` as a number: the four fields do not carry (30_encoding.md R54). -/
theorem Status.word_toNat (st : Status) :
    st.word.toNat = st.busy.toNat + 2 * st.done.toNat + 4 * st.ok.toNat + 8 * st.fault.toNat := by
  have hbusy := Bool.toNat_le st.busy
  have hdone := Bool.toNat_le st.done
  have hok := Bool.toNat_le st.ok
  have hfault := Bool.toNat_le st.fault
  rw [Status.word, BitVec.toNat_ofNat, Nat.mod_eq_of_lt (by omega)]

/-- Settles O42: `STATUS` may be read at any time, the other registers while idle. -/
theorem hostReadsRegisters : Obligations.HostReadsRegisters := by
  intro s rest
  refine ⟨fun hs => ?status, fun hb hs => ?len, fun hb hs => ?plen, fun hb hs => ?olen⟩
  case status =>
    rw [step_of_allowed hs (by rfl) (by rfl), ← Status.word_toNat]
    rfl
  case len =>
    rw [step_of_allowed hs (by rfl) (by simp [contractAllows, hb])]
    rfl
  case plen =>
    rw [step_of_allowed hs (by rfl) (by simp [contractAllows, hb])]
    rfl
  case olen =>
    rw [step_of_allowed hs (by rfl) (by simp [contractAllows, hb])]
    rfl

/-- A byte write changes the memories alone. -/
theorem State.setByte_form (s : State) (sp : Space) (a : Nat) (v : Byte) :
    s.setByte sp a v =
      { s with cb := (s.setByte sp a v).cb, pm := (s.setByte sp a v).pm, om := (s.setByte sp a v).om } := by
  cases sp <;> rfl

/-- Settles O43: while idle the access is performed; what a byte write does is `State.byte_setByte_same` and
`State.byte_setByte_other`. -/
theorem hostAccessesBytes : Obligations.HostAccessesBytes := by
  intro s sp off rest hb hoff
  refine ⟨fun b hsp hs => ?_, fun hs => ?_⟩
  · rw [step_of_allowed hs (wf_wb_iff.mpr ⟨hsp, hoff⟩) (by simp [contractAllows, hb])]
    refine ⟨_, rfl, State.byte_setByte_same .., fun sp' a h => ?_, State.setByte_form ..⟩
    rw [State.byte_setByte_other _ b h]
    exact State.byte_congr (by cases sp' <;> rfl) a
  · have hbyte : State.byte { s with script := rest } sp off = s.byte sp off :=
      State.byte_congr (by cases sp <;> rfl) off
    rw [step_of_allowed hs (wf_rb_iff.mpr hoff) (by simp [contractAllows, hb]), perform, hbyte]

/-- A `RESET` line is performed at any time (70_reset_and_hazards.md R120). -/
theorem step_reset {s : State} {drawn : Nat} {rest : List HostAct} (hs : s.script = .reset drawn :: rest) :
    step s = .next (resetEvent drawn { s with script := rest }) :=
  step_of_allowed hs rfl rfl

/-- A reset gives `STATUS`, `LEN`, `PLEN`, `OLEN`, `CUR` and `OPL` new values, counts itself, and beside that changes
`CB` at most (70_reset_and_hazards.md R120, R121). -/
theorem resetEvent_form (drawn : Nat) (s : State) :
    resetEvent drawn s = { s with
      status := ⟨false, false, false, false⟩, len := 0, plen := 0, olen := 0,
      cur := (resetEvent drawn s).cur, opl := (resetEvent drawn s).opl, cb := (resetEvent drawn s).cb,
      resets := s.resets + 1 } := by
  simp only [resetEvent]
  rw [brokenOff_form]
  rfl

/-- Every byte that a reset leaves is what it leaves of the operation it breaks off (70_reset_and_hazards.md R121). -/
@[simp] theorem resetEvent_byte (drawn : Nat) (s : State) (sp : Space) (a : Nat) :
    (resetEvent drawn s).byte sp a = (brokenOff drawn s).byte sp a :=
  State.byte_congr (by cases sp <;> rfl) a

/-- When an `EMBED` is about to write a quad: in progress, past its checks, with a unit left (41_embed.md R73). -/
theorem embedWriting_eq_true_iff (s : State) : embedWriting s = true ↔
    s.status.busy = true ∧ s.opl = 0 ∧ embedCause s = none ∧ s.cur / 4 ≤ s.plen ∧ embedFault? s = none := by
  simp [embedWriting, and_assoc]

/-- An idle codec and an `EXTRACT` are not about to write a quad. -/
theorem embedWriting_eq_false {s : State} (h : s.status.busy = false ∨ s.opl = 1) : embedWriting s = false := by
  rw [Bool.eq_false_iff, ne_eq, embedWriting_eq_true_iff]
  rintro ⟨hb, ho, -⟩
  simp [hb, ho] at h

/-- A reset writes no memory unless an `EMBED` is about to write a quad (70_reset_and_hazards.md R121). -/
theorem resetEvent_cb {s : State} (drawn : Nat) (h : embedWriting s = false) : (resetEvent drawn s).cb = s.cb := by
  have hbroken : brokenOff drawn s = s := by rw [brokenOff, if_neg (by simp [h])]
  rw [resetEvent, hbroken]

/-- Settles O44: the reset is performed (`step_reset`), and of the memories only the quad that an `EMBED` is about to
write is touched (`brokenOff_byte`). -/
theorem resetAtAnyTime : Obligations.ResetAtAnyTime := by
  intro s drawn rest hs
  have hwriting : embedWriting { s with script := rest } = embedWriting s := rfl
  refine ⟨_, step_reset hs, resetEvent_form .., fun h => ?_, fun h => ?_, fun h a => ?_⟩
  · exact resetEvent_cb drawn (hwriting.trans (embedWriting_eq_false h))
  · exact resetEvent_cb drawn (hwriting.trans h)
  · rw [resetEvent_byte, brokenOff_byte, hwriting, h]
    simp only [true_and]
    rfl

end Sys2Proof.Machine
end

section
/-! # What every step keeps

Two facts about all steps, of the engine and of the host: the configuration is a constant (10_state.md R26), and `STATUS`
changes at accept, at complete and at reset only (10_state.md R20). -/

namespace Sys2Proof.Machine

open Sys2Proof

/-- A command leaves the configuration: accept and the turns of the engine do. -/
theorem exec_cfg {i : Instr} {s t : State} (h : exec i s = .next t) : t.cfg = s.cfg := by
  obtain ⟨q, -, u, hu, hend⟩ := exec_completes i (idle_of_exec h)
  obtain rfl := Host.Outcome.next.inj (hu.symm.trans h)
  exact hend.invariant (P := fun v => v.cfg = s.cfg) (fun v w hv hvw => by rw [engineTurn_form hvw]; exact hv) rfl

/-- A line leaves the configuration. -/
theorem perform_cfg {a : HostAct} {s t : State} (h : perform a s = .next t) : t.cfg = s.cfg := by
  obtain ⟨w, i, -, -, rfl⟩ | ⟨v, -, rfl⟩ | ⟨v, -, rfl⟩ | ⟨reg, v, -, rfl⟩ | ⟨sp, off, b, -, rfl⟩ | ⟨sp, off, -, rfl⟩ |
    ⟨drawn, -, rfl⟩ | ⟨w, i, -, -, hexec⟩ | ⟨-, -, rfl⟩ | ⟨-, -, u, hturn, rfl⟩ | ⟨-, hturn⟩ := perform_cases h
  · rfl
  · rfl
  · rfl
  · rfl
  · exact State.setByte_cfg ..
  · rfl
  · rw [resetEvent_form]
  · exact exec_cfg hexec
  · rfl
  · rw [engineTurn_form hturn]
  · rw [engineTurn_form hturn]

/-- Settles O47: a step is a turn of the engine or a line. -/
theorem configurationNeverChanges : Obligations.ConfigurationNeverChanges := by
  intro s t h
  obtain ⟨-, hturn⟩ | ⟨a, rest, -, -, -, hperform⟩ := step_cases h
  · rw [engineTurn_form hturn]
  · exact perform_cfg (s := { s with script := rest }) hperform

/-- A turn of the engine leaves `STATUS` or completes (10_state.md R20). -/
theorem engineTurn_status {s t : State} (h : engineTurn s = .next t) :
    t.status = s.status ∨ (s.status.busy = true ∧ t.status.busy = false ∧ t.status.done = true) := by
  obtain ⟨hb, h⟩ | ⟨-, rfl⟩ := engineTurn_cases h
  · obtain ⟨c, rfl, -⟩ | ⟨-, -, -, -, rfl⟩ | ⟨-, -, -, -, -, rfl⟩ | ⟨rfl, -⟩ := engineStep_cases h
    · exact .inr ⟨hb, rfl, rfl⟩
    · exact .inl (by rw [embedQuad_form])
    · exact .inl (by rw [extractQuad_form])
    · exact .inr ⟨hb, rfl, rfl⟩
  · exact .inl rfl

/-- A command ends with `DONE = 1` (10_state.md R20). -/
theorem exec_done {i : Instr} {s t : State} (h : exec i s = .next t) : t.status.done = true := by
  obtain ⟨q, -, u, hu, hend⟩ := exec_completes i (idle_of_exec h)
  obtain rfl := Host.Outcome.next.inj (hu.symm.trans h)
  exact hend.idle_and_done.2

/-- Of the lines that the contract allows, a write of `CMD`, a call and a reset touch `STATUS`, and those that leave the
engine a turn in which it completes (10_state.md R20). -/
theorem perform_status {a : HostAct} {s t : State} (hc : contractAllows s a = true) (h : perform a s = .next t) :
    t.status = s.status ∨
    (s.status.busy = false ∧ t.status.word = 0b0001#4 ∧ ∃ w, a = .wr 0 w) ∨
    (s.status.busy = true ∧ t.status.busy = false ∧ t.status.done = true) ∨
    (s.status.busy = false ∧ t.status.done = true ∧ ∃ w, a = .call w) ∨
    (t.status.word = 0b0000#4 ∧ ∃ drawn, a = .reset drawn) := by
  obtain ⟨w, i, rfl, -, rfl⟩ | ⟨v, -, rfl⟩ | ⟨v, -, rfl⟩ | ⟨reg, v, -, rfl⟩ | ⟨sp, off, b, -, rfl⟩ |
    ⟨sp, off, -, rfl⟩ | ⟨drawn, rfl, rfl⟩ | ⟨w, i, rfl, -, hexec⟩ | ⟨-, -, rfl⟩ | ⟨-, -, u, hturn, rfl⟩ | ⟨-, hturn⟩ :=
    perform_cases h
  · exact .inr (.inl ⟨idle_of_contractAllows rfl hc, rfl, w, rfl⟩)
  · exact .inl rfl
  · exact .inl rfl
  · exact .inl rfl
  · exact .inl (State.setByte_status ..)
  · exact .inl rfl
  · exact .inr (.inr (.inr (.inr ⟨rfl, drawn, rfl⟩)))
  · exact .inr (.inr (.inr (.inl ⟨idle_of_contractAllows rfl hc, exec_done hexec, w, rfl⟩)))
  · exact .inl rfl
  · exact (engineTurn_status hturn).imp_right fun hdone => .inr (.inl hdone)
  · exact (engineTurn_status hturn).imp_right fun hdone => .inr (.inl hdone)

/-- Settles O46: `engineTurn_status` for a step that is the engine's, `perform_status` for a line. -/
theorem statusChangesOnlyAtAcceptAndComplete : Obligations.StatusChangesOnlyAtAcceptAndComplete := by
  intro s t h
  obtain ⟨-, hturn⟩ | ⟨a, rest, hs, -, hc, hperform⟩ := step_cases h
  · exact (engineTurn_status hturn).imp_right fun hdone => .inr (.inl hdone)
  have hc' : contractAllows { s with script := rest } a = true := by cases a <;> exact hc
  obtain hkeep | ⟨hb, hword, w, rfl⟩ | hdone | ⟨hb, hdone, w, rfl⟩ | ⟨hword, drawn, rfl⟩ := perform_status hc' hperform
  · exact .inl hkeep
  · exact .inr (.inl ⟨hb, hword, w, rest, hs⟩)
  · exact .inr (.inr (.inl hdone))
  · exact .inr (.inr (.inr (.inl ⟨hb, hdone, w, rest, hs⟩)))
  · exact .inr (.inr (.inr (.inr ⟨hword, drawn, rest, hs⟩)))

end Sys2Proof.Machine
end

section
/-! # The invariant

Kept by each operation that a step is made of, so by a turn of the engine; a called command is an accept and such turns,
so by every step (10_state.md R28, 41_embed.md R76, 42_extract.md R86). Where it holds the engine completes what it is at
(43_properties.md R99), no access is out of range, and `STATUS` has one of five values. -/

namespace Sys2Proof.Machine

open Sys2Proof

/-- The five values that the flag relations leave `STATUS` (10_state.md R28). -/
def Status.legalValues : List Status :=
  [⟨false, false, false, false⟩, ⟨true, false, false, false⟩, ⟨false, true, false, false⟩,
    ⟨false, true, true, false⟩, ⟨false, true, false, true⟩]

/-- A legal `STATUS` has one of the five values: there are few enough to look at them all (10_state.md R28). -/
theorem Status.Legal.mem_legalValues {st : Status} (h : st.Legal) : st ∈ legalValues := by
  have hall : ∀ busy done ok fault : Bool, ¬ (busy = true ∧ done = true) → (ok = true → done = true ∧ fault = false) →
      (fault = true → done = true ∧ ok = false) → (⟨busy, done, ok, fault⟩ : Status) ∈ legalValues := by decide
  exact hall st.busy st.done st.ok st.fault h.busy_not_done h.ok_done h.fault_done

/-- While `BUSY = 1` no other flag is set (10_state.md R28). -/
theorem Status.Legal.eq_of_busy {st : Status} (h : st.Legal) (hb : st.busy = true) :
    st = ⟨true, false, false, false⟩ := by
  have hbusy : ∀ v ∈ legalValues, v.busy = true → v = ⟨true, false, false, false⟩ := by decide
  exact hbusy st h.mem_legalValues hb

/-- Settles O52: the words of the five legal values. -/
theorem statusReadsAsOneOfFiveValues : Obligations.StatusReadsAsOneOfFiveValues := fun _ h =>
  List.mem_map_of_mem (f := Status.word) h.status_legal.mem_legalValues

/-- `STATUS` after reset is legal (10_state.md R27). -/
theorem Status.legal_idle : Status.idle.Legal := ⟨by decide, by decide, by decide⟩

/-- `STATUS` of a completed command is legal unless `OK` and `FAULT` are both set (10_state.md R28). -/
theorem Status.legal_done {ok fault : Bool} (h : ok = true → fault = false) :
    Status.Legal ⟨false, true, ok, fault⟩ where
  busy_not_done := by simp
  ok_done hok := ⟨rfl, h hok⟩
  fault_done hf := ⟨rfl, by cases ok <;> simp_all⟩

/-- Every memory is in canonical form and inside its space (20_memory.md R30). -/
def State.MemOk (s : State) : Prop := ∀ sp, (s.mem sp).wf ∧ (s.mem sp).within (s.cfg.size sp)

/-- The part of the invariant about the memories. -/
theorem State.Inv.memOk {s : State} (h : s.Inv) : s.MemOk := fun sp => ⟨h.mem_wf sp, h.mem_within sp⟩

/-- A byte write inside its space keeps the memories in order. -/
theorem State.MemOk.after_setByte {s : State} (h : s.MemOk) {sp : Space} {a : Nat} (ha : a < s.cfg.size sp) (v : Byte) :
    (s.setByte sp a v).MemOk := fun sp' =>
  ⟨State.mem_wf_setByte (fun sp => (h sp).1) sp a v sp',
    by rw [State.setByte_cfg]; exact State.mem_within_setByte (fun sp => (h sp).2) ha v sp'⟩

/-- Byte writes of a quad that lies inside `CB` keep the memories in order. -/
theorem State.MemOk.after_embedBytes {s : State} (h : s.MemOk) (b : Byte) {n : Nat} (hn : s.cur + n ≤ s.cfg.cbBytes) :
    (embedBytes b n s).MemOk := by
  induction n with
  | zero => exact h
  | succ n ih =>
    have hform := embedBytes_form b n s
    have ha : (embedBytes b n s).cur + n < (embedBytes b n s).cfg.cbBytes := by rw [hform]; exact hn
    exact (ih (by omega)).after_setByte (sp := .cb) ha _

/-- A state that holds the memories of another one in the same configuration keeps them in order. -/
theorem State.MemOk.congr {s t : State} (h : s.MemOk) (hcfg : t.cfg = s.cfg) (hcb : t.cb = s.cb) (hpm : t.pm = s.pm)
    (hom : t.om = s.om) : t.MemOk := by
  intro sp
  have hmem : t.mem sp = s.mem sp := by
    cases sp with
    | cb => exact hcb
    | pm => exact hpm
    | om => exact hom
  rw [hmem, hcfg]
  exact h sp

/-- While idle the invariant says nothing of `OPL` nor of where `CUR` stands. -/
theorem State.Inv.of_idle {s : State} (hb : s.status.busy = false) (cfg_wf : s.cfg.wf) (len : s.len < 2 ^ s.cfg.lw)
    (plen : s.plen < 2 ^ s.cfg.lw) (cur : s.cur < 2 ^ s.cfg.lw) (olen : s.olen ≤ s.cfg.qmax)
    (legal : s.status.Legal) (mem : s.MemOk) : s.Inv where
  cfg_wf := cfg_wf
  len_fits := len
  plen_fits := plen
  cur_fits := cur
  olen_le := olen
  status_legal := legal
  cur_aligned h := absurd h (by simp [hb])
  embed_at h := absurd h (by simp [hb])
  extract_at h := absurd h (by simp [hb])
  mem_wf sp := (mem sp).1
  mem_within sp := (mem sp).2

/-- Settles O49: every register is 0 and every memory empty. -/
theorem resetMeetsTheInvariant : Obligations.ResetMeetsTheInvariant := by
  intro c hc
  have hpos : 0 < 2 ^ c.lw := Nat.two_pow_pos _
  refine .of_idle rfl hc hpos hpos hpos (Nat.zero_le _) Status.legal_idle fun sp => ?_
  have hmem : (State.resetWith c).mem sp = [] := by cases sp <;> rfl
  rw [hmem]
  exact ⟨.nil, fun _ hx => absurd hx List.not_mem_nil⟩

/-- The host's script and its replies are not the invariant's concern. -/
theorem State.Inv.withHost {s : State} (h : s.Inv) (l : List HostAct) (r : List Nat) :
    State.Inv { s with script := l, replies := r } where
  cfg_wf := h.cfg_wf
  len_fits := h.len_fits
  plen_fits := h.plen_fits
  cur_fits := h.cur_fits
  olen_le := h.olen_le
  status_legal := h.status_legal
  cur_aligned := h.cur_aligned
  embed_at := h.embed_at
  extract_at := h.extract_at
  mem_wf sp := (h.memOk.congr rfl rfl rfl rfl sp).1
  mem_within sp := (h.memOk.congr rfl rfl rfl rfl sp).2

/-- Accept keeps the invariant: either operation starts at `CUR = 0`, an `EXTRACT` with `OLEN = 0`. -/
theorem State.Inv.after_accept {s : State} (h : s.Inv) (op : BitVec 1) : (accept op s).Inv where
  cfg_wf := h.cfg_wf
  len_fits := h.len_fits
  plen_fits := h.plen_fits
  cur_fits := Nat.two_pow_pos _
  olen_le := by
    rw [accept_olen]
    split
    · exact Nat.zero_le _
    · exact h.olen_le
  status_legal := by rw [accept_status]; exact ⟨by simp, by simp, by simp⟩
  cur_aligned _ := rfl
  embed_at _ _ := .inl rfl
  extract_at _ ho := .inl ⟨rfl, if_pos ho⟩
  mem_wf sp := by rw [accept_mem]; exact h.mem_wf sp
  mem_within sp := by rw [accept_mem]; exact h.mem_within sp

/-- Completion keeps the invariant: `FAULT` is not set while an operation is in progress. -/
theorem State.Inv.after_complete {s : State} (h : s.Inv) (hb : s.status.busy = true) (ok : Bool) : (complete ok s).Inv := by
  refine .of_idle rfl h.cfg_wf h.len_fits h.plen_fits h.cur_fits h.olen_le ?_ (h.memOk.congr rfl rfl rfl rfl)
  rw [complete_status, h.status_legal.eq_of_busy hb]
  exact Status.legal_done fun _ => rfl

/-- The report of a cause keeps the invariant. -/
theorem State.Inv.after_raiseCause {s : State} (h : s.Inv) (c : Cause) : (raiseCause c s).Inv := by
  refine .of_idle rfl h.cfg_wf h.len_fits h.plen_fits h.cur_fits h.olen_le ?_ (h.memOk.congr rfl rfl rfl rfl)
  rw [raiseCause_status]
  exact Status.legal_done fun h => nomatch h

/-- A quad step of an `EMBED` past its checks keeps the invariant (41_embed.md R76). -/
theorem State.Inv.after_embedQuad {s : State} (h : s.Inv) (hb : s.status.busy = true) (ho : s.opl = 0)
    (hl : s.len ≤ s.cfg.cbBytes) (hq : s.plen < s.quads) (hc : s.cur / 4 ≤ s.plen) : (embedQuad s).Inv := by
  have h4 := h.cur_aligned hb
  have hwf := h.cfg_wf
  have hmul : 4 * s.quads ≤ s.len := Nat.mul_div_le s.len 4
  have hmem : (embedQuad s).MemOk :=
    (h.memOk.after_embedBytes (s.unit (s.cur / 4)) (n := 4) (by omega)).congr rfl rfl rfl rfl
  have hform := embedQuad_form s
  generalize embedQuad s = t at hmem hform
  rw [hform] at hmem ⊢
  exact {
    cfg_wf := hwf
    len_fits := h.len_fits
    plen_fits := h.plen_fits
    cur_fits := show s.cur + 4 < 2 ^ s.cfg.lw by simp only [Config.wf] at hwf; omega
    olen_le := h.olen_le
    status_legal := h.status_legal
    cur_aligned := fun _ => show (s.cur + 4) % 4 = 0 by omega
    embed_at := fun _ _ => .inr ⟨hl, hq, show s.cur + 4 ≤ 4 * (s.plen + 1) by omega⟩
    extract_at := fun _ ho' => absurd (ho.symm.trans ho') (by decide)
    mem_wf := fun sp => (hmem sp).1
    mem_within := fun sp => (hmem sp).2 }

/-- A quad step of an `EXTRACT` that has appended every quad it read keeps the invariant (42_extract.md R86). -/
theorem State.Inv.after_extractQuad {s : State} (h : s.Inv) (hb : s.status.busy = true) (ho : s.opl = 1)
    (hl : s.len ≤ s.cfg.cbBytes) (hc : s.cur = 4 * s.olen) (hg : s.cur + 4 ≤ s.len) : (extractQuad s).Inv := by
  have h4 := h.cur_aligned hb
  have hwf := h.cfg_wf
  have hquads : s.cur + 4 ≤ 4 * s.quads := by rw [State.quads]; omega
  have hqmax : s.olen + 1 ≤ s.cfg.qmax := by rw [Config.qmax]; omega
  have hmem : (extractQuad s).MemOk := by
    by_cases hz : s.quadAt s.cur = terminator
    · rw [extractQuad_stop hz]
      exact h.memOk.congr rfl rfl rfl rfl
    · rw [extractQuad_append hz]
      exact (h.memOk.after_setByte (sp := .om) hqmax (s.quadAt s.cur)).congr rfl rfl rfl rfl
  have holen : (extractQuad s).olen = s.olen ∨ (extractQuad s).olen = s.olen + 1 := by
    by_cases hz : s.quadAt s.cur = terminator
    · exact .inl (by rw [extractQuad_stop hz])
    · exact .inr (by rw [extractQuad_append hz])
  have hform := extractQuad_form s
  generalize extractQuad s = t at hmem hform holen
  rw [hform] at hmem ⊢
  exact {
    cfg_wf := hwf
    len_fits := h.len_fits
    plen_fits := h.plen_fits
    cur_fits := show s.cur + 4 < 2 ^ s.cfg.lw by simp only [Config.wf] at hwf; omega
    olen_le := show t.olen ≤ s.cfg.qmax by omega
    status_legal := h.status_legal
    cur_aligned := fun _ => show (s.cur + 4) % 4 = 0 by omega
    embed_at := fun _ ho' => absurd (ho'.symm.trans ho) (by decide)
    extract_at := fun _ _ => .inr
      ⟨hl, hquads, show s.cur + 4 = 4 * t.olen ∨ s.cur + 4 = 4 * t.olen + 4 by omega⟩
    mem_wf := fun sp => (hmem sp).1
    mem_within := fun sp => (hmem sp).2 }

/-- A turn of the engine keeps the invariant. -/
theorem State.Inv.after_engineTurn {s t : State} (h : s.Inv) (hturn : engineTurn s = .next t) : t.Inv := by
  obtain ⟨hb, hstep⟩ | ⟨-, rfl⟩ := engineTurn_cases hturn
  case inr => exact h
  obtain ⟨c, rfl, -⟩ | ⟨ho, hcause, hc, -, rfl⟩ | ⟨ho, hcause, hc, hg, -, rfl⟩ | ⟨rfl, -⟩ := engineStep_cases hstep
  · exact h.after_raiseCause c
  · obtain ⟨hl, hq⟩ := (embedCause_eq_none s).mp hcause
    exact h.after_embedQuad hb ho hl hq hc
  · exact h.after_extractQuad hb ho ((extractCause_eq_none s).mp hcause) hc hg
  · exact h.after_complete hb true

/-- A command keeps the invariant: it is an accept and turns of the engine. -/
theorem State.Inv.after_exec {s t : State} {i : Instr} (h : s.Inv) (hexec : exec i s = .next t) : t.Inv := by
  obtain ⟨q, -, u, hu, hend⟩ := exec_completes i (idle_of_exec hexec)
  obtain rfl := Host.Outcome.next.inj (hu.symm.trans hexec)
  exact hend.invariant (fun _ _ => State.Inv.after_engineTurn) (h.after_accept (encode i))

/-- A reset keeps the invariant: the byte writes it may still do lie inside `CB` (70_reset_and_hazards.md R121). -/
theorem State.Inv.after_resetEvent {s : State} (h : s.Inv) (drawn : Nat) : (resetEvent drawn s).Inv := by
  have hmem : (brokenOff drawn s).MemOk := by
    unfold brokenOff
    split
    next hwriting =>
      obtain ⟨hb, -, hcause, hc, -⟩ := (embedWriting_eq_true_iff s).mp hwriting
      obtain ⟨hl, hq⟩ := (embedCause_eq_none s).mp hcause
      have h4 := h.cur_aligned hb
      rw [State.quads] at hq
      exact h.memOk.after_embedBytes _ (by omega)
    next => exact h.memOk
  have hpos : 0 < 2 ^ s.cfg.lw := Nat.two_pow_pos _
  have hcfg : (brokenOff drawn s).cfg = s.cfg := by rw [brokenOff_form]
  refine .of_idle rfl ?_ ?_ ?_ ?_ (Nat.zero_le _) Status.legal_idle (hmem.congr rfl rfl rfl rfl)
  all_goals dsimp only [resetEvent]; rw [hcfg]
  · exact h.cfg_wf
  · exact hpos
  · exact hpos
  · exact Nat.mod_lt _ hpos

/-- While idle a byte write inside its space keeps the invariant. -/
theorem State.Inv.after_setByte {s : State} (h : s.Inv) (hb : s.status.busy = false) {sp : Space} {off : Nat}
    (hoff : off < s.cfg.size sp) (b : Byte) : (s.setByte sp off b).Inv :=
  .of_idle (by rw [State.setByte_status]; exact hb) (by rw [State.setByte_cfg]; exact h.cfg_wf)
    (by rw [State.setByte_len, State.setByte_cfg]; exact h.len_fits)
    (by rw [State.setByte_plen, State.setByte_cfg]; exact h.plen_fits)
    (by rw [State.setByte_cur, State.setByte_cfg]; exact h.cur_fits)
    (by rw [State.setByte_olen, State.setByte_cfg]; exact h.olen_le)
    (by rw [State.setByte_status]; exact h.status_legal) (h.memOk.after_setByte hoff b)

/-- A line that the interface has and the contract allows keeps the invariant. -/
theorem State.Inv.after_perform {s t : State} {a : HostAct} (h : s.Inv) (hwf : a.wf s.cfg = true)
    (hc : contractAllows s a = true) (hperform : perform a s = .next t) : t.Inv := by
  have hfits {reg v : Nat} (hwr : (HostAct.wr (reg + 1) v).wf s.cfg = true) : v < 2 ^ s.cfg.lw := by
    obtain hreg | ⟨-, hv⟩ := wf_wr_iff.mp hwr
    · cases hreg
    · exact hv
  obtain ⟨w, i, rfl, -, rfl⟩ | ⟨v, rfl, rfl⟩ | ⟨v, rfl, rfl⟩ | ⟨reg, v, -, rfl⟩ | ⟨sp, off, b, rfl, rfl⟩ |
    ⟨sp, off, -, rfl⟩ | ⟨drawn, -, rfl⟩ | ⟨w, i, -, -, hexec⟩ | ⟨-, -, rfl⟩ | ⟨-, -, u, hturn, rfl⟩ | ⟨-, hturn⟩ :=
    perform_cases hperform
  · exact h.after_accept _
  · have hb : s.status.busy = false := idle_of_contractAllows rfl hc
    exact .of_idle hb h.cfg_wf (hfits hwf) h.plen_fits h.cur_fits h.olen_le h.status_legal
      (h.memOk.congr rfl rfl rfl rfl)
  · have hb : s.status.busy = false := idle_of_contractAllows rfl hc
    exact .of_idle hb h.cfg_wf h.len_fits (hfits hwf) h.cur_fits h.olen_le h.status_legal
      (h.memOk.congr rfl rfl rfl rfl)
  · exact h.withHost _ _
  · exact h.after_setByte (idle_of_contractAllows rfl hc) (wf_wb_iff.mp hwf).2 b
  · exact h.withHost _ _
  · exact h.after_resetEvent drawn
  · exact h.after_exec hexec
  · exact h
  · exact (h.after_engineTurn hturn).withHost _ _
  · exact h.after_engineTurn hturn

/-- Settles O50: a step is a turn of the engine or a line that the interface has and the contract allows. -/
theorem everyStepKeepsTheInvariant : Obligations.EveryStepKeepsTheInvariant := by
  intro s t h hstep
  obtain ⟨-, hturn⟩ | ⟨a, rest, -, hwf, hc, hperform⟩ := step_cases hstep
  · exact h.after_engineTurn hturn
  · have hc' : contractAllows { s with script := rest } a = true := by cases a <;> exact hc
    exact (h.withHost rest s.replies).after_perform hwf hc' hperform

/-- Where the invariant holds, an `EMBED` past its checks has at most its `PLEN + 1` quad steps to go
(41_embed.md R73). -/
theorem State.Inv.embed_completes {s : State} (h : s.Inv) (hb : s.status.busy = true) (ho : s.opl = 0)
    (hl : s.len ≤ s.cfg.cbBytes) (hq : s.plen < s.quads) : ∃ q ≤ s.plen + 1, ∃ t, Completes q s t := by
  have h4 := h.cur_aligned hb
  have hcur : s.cur ≤ 4 * (s.plen + 1) := by
    obtain hcur | ⟨-, -, hcur⟩ := h.embed_at hb ho
    · omega
    · exact hcur
  exact ⟨s.plen + 1 - s.cur / 4, Nat.sub_le _ _, _, State.EmbedPastChecks.completes ⟨hb, ho, hl, hq, h4⟩ (by omega)⟩

/-- Where the invariant holds, an `EXTRACT` past its check has at most `floor(LEN / 4)` quad steps to go
(42_extract.md R82). -/
theorem State.Inv.extract_completes {s : State} (h : s.Inv) (hb : s.status.busy = true) (ho : s.opl = 1)
    (hl : s.len ≤ s.cfg.cbBytes) : ∃ q ≤ s.quads, ∃ t, Completes q s t := by
  by_cases hc : s.cur = 4 * s.olen
  · have holen : s.olen ≤ s.quads := by
      obtain ⟨-, holen⟩ | ⟨-, hcur, -⟩ := h.extract_at hb ho <;> omega
    obtain ⟨q, hq, t, -, hend⟩ := completes_extract hb ho hl hc (Nat.add_sub_of_le holen)
    exact ⟨q, by omega, _, hend⟩
  · refine ⟨0, Nat.zero_le _, complete true s, .last ?_ rfl rfl⟩
    rw [engineTurn_busy hb, engineStep_extract_done ho hl (.inl hc)]

/-- Where the invariant holds a busy engine completes its operation: at once when the command has a cause, and otherwise
after at most one quad step for each unit, or each whole quad (43_properties.md R99). -/
theorem State.Inv.completes {s : State} (h : s.Inv) (hb : s.status.busy = true) :
    ∃ q t, Completes q s t ∧ q ≤ s.cfg.qmax ∧ (s.opl = 0 → q ≤ s.plen + 1) ∧ (s.opl = 1 → q ≤ s.len / 4) ∧
      (s.len > s.cfg.cbBytes ∨ (s.opl = 0 ∧ s.len / 4 ≤ s.plen) → q = 0 ∧ t.cur = s.cur) := by
  have hquads (hl : s.len ≤ s.cfg.cbBytes) : s.quads ≤ s.cfg.qmax := Nat.div_le_div_right hl
  have hcause (c : Cause) (hc : (s.opl = 0 ∧ embedCause s = some c) ∨ (s.opl = 1 ∧ extractCause s = some c)) :=
    completes_of_cause hb hc
  obtain ho | ho := opl_zero_or_one s.opl
  · have ho' : s.opl ≠ 1 := by rw [ho]; decide
    cases hc : embedCause s with
    | some c => exact ⟨0, _, hcause c (.inl ⟨ho, hc⟩), by simp⟩
    | none =>
      obtain ⟨hl, hq⟩ := (embedCause_eq_none s).mp hc
      obtain ⟨q, hqle, t, hend⟩ := h.embed_completes hb ho hl hq
      have hnone : ¬ (s.len > s.cfg.cbBytes ∨ (s.opl = 0 ∧ s.len / 4 ≤ s.plen)) := by
        rw [State.quads] at hq
        omega
      exact ⟨q, t, hend, by have := hquads hl; omega, fun _ => hqle, fun h => absurd h ho', fun h => absurd h hnone⟩
  · have ho' : s.opl ≠ 0 := by rw [ho]; decide
    cases hc : extractCause s with
    | some c => exact ⟨0, _, hcause c (.inr ⟨ho, hc⟩), by simp⟩
    | none =>
      have hl := (extractCause_eq_none s).mp hc
      obtain ⟨q, hqle, t, hend⟩ := h.extract_completes hb ho hl
      have hnone : ¬ (s.len > s.cfg.cbBytes ∨ (s.opl = 0 ∧ s.len / 4 ≤ s.plen)) := by
        simp only [ho', false_and, or_false]
        omega
      exact ⟨q, t, hend, le_trans hqle (hquads hl), fun h => absurd h ho', fun _ => hqle, fun h => absurd h hnone⟩

/-- Settles O33: with no line left the run of a busy engine is the turns of `State.Inv.completes`, and `STATUS` is as it
was before the last. -/
theorem everyOperationCompletes : Obligations.EveryOperationCompletes := by
  intro s h hb hs
  obtain ⟨q, t, hend, hqmax, hembed, hextract, hcause⟩ := h.completes hb
  obtain ⟨hidle, hdone⟩ := hend.idle_and_done
  refine ⟨q, t, (run_of_script_nil hs).trans hend.turns, hidle, hdone, hqmax, hembed, hextract, hcause, fun k hk => ?_⟩
  obtain ⟨m, hm, hstatus⟩ := hend.before hk
  exact ⟨m, (run_of_script_nil hs).trans hm, by rw [hstatus]; exact hb⟩

/-- Where the invariant holds the engine has a turn to take (41_embed.md R76, 42_extract.md R86). -/
theorem State.Inv.exists_engineTurn {s : State} (h : s.Inv) : ∃ t, engineTurn s = .next t := by
  cases hb : s.status.busy with
  | false => exact ⟨s, engineTurn_idle hb⟩
  | true =>
    obtain ⟨q, t, hend, -⟩ := h.completes hb
    exact hend.exists_turn

/-- Settles O51: a step faults by a turn of the engine only, and the engine has a turn that does not fault. -/
theorem noAccessIsOutOfRange : Obligations.NoAccessIsOutOfRange := by
  intro s h
  obtain ⟨t, hturn⟩ := h.exists_engineTurn
  refine ⟨fun f => ?_, fun hs => ⟨t, (step_nil hs).trans hturn⟩⟩
  cases hs : s.script with
  | nil => simp [step_nil hs, hturn]
  | cons a rest =>
    obtain ⟨-, hstep⟩ | ⟨-, -, hstep⟩ | ⟨-, -, ⟨u, hstep⟩ | hstep | ⟨f', hfault, -⟩⟩ := step_cons_outcome hs
    · simp [hstep]
    · simp [hstep]
    · simp [hstep]
    · simp [hstep]
    · simp [hturn] at hfault

end Sys2Proof.Machine
end

section
/-! # A reset during an operation

Where an operation stands after any number of the engine's turns is said by what it has written so far: of an `EMBED` the
bytes of `CB` below `CUR`, of an `EXTRACT` the bytes of `OM` below `OLEN`. Every turn keeps that, and a reset adds at most
the first byte writes of the quad in progress (70_reset_and_hazards.md R121). -/

namespace Sys2Proof.Machine

open Sys2Proof

/-- The write of `CMD`, `n` turns of the engine that leave `u`, and a reset. -/
theorem run_reset_during {s u : State} {w n drawn : Nat} {i : Instr} {rest : List HostAct} (hb : s.status.busy = false)
    (hd : decode w = .ok i) (hs : s.script = .wr 0 w :: (List.replicate n .tick ++ .reset drawn :: rest))
    (hu : engineTurns n (accept (encode i) { s with script := .reset drawn :: rest }) = .next u) :
    run (n + 2) s = .next (resetEvent drawn { u with script := rest }) := by
  have hstarted : run (n + 1) s = .next u := by
    rw [run, step_wr_cmd hb hs hd, andThen_next]
    exact (run_ticks rfl).trans hu
  rw [run_add (n + 1) 1, hstarted, andThen_next, run_one, step_reset (engineTurns_keep_script hu)]

/-- Where an `EMBED` of `s` stands in `u`: it has written the bytes of `CB` below `CUR`, whole quads, as `pack` gives
them, and nothing else (41_embed.md R73). -/
structure State.Embedding (s u : State) : Prop where
  form : u = { s with script := u.script, status := u.status, cur := u.cur, opl := 0, cb := u.cb }
  aligned : u.cur % 4 = 0
  cur_le : u.cur ≤ 4 * (s.plen + 1)
  bytes : ∀ a, u.byte .cb a =
    if a < u.cur then packByte (s.unit (a / 4)) (a % 4) (s.byte .cb a) else s.byte .cb a

/-- The first `k` byte writes of the quad at `CUR` extend what is written by `k` bytes (20_memory.md R38). -/
theorem State.Embedding.bytes_extend {s u : State} (h : s.Embedding u) {k : Nat} (hk : k ≤ 4) (a : Nat) :
    (if u.cur ≤ a ∧ a < u.cur + k then packByte (u.unit (u.cur / 4)) (a - u.cur) (u.byte .cb a) else u.byte .cb a) =
      if a < u.cur + k then packByte (s.unit (a / 4)) (a % 4) (s.byte .cb a) else s.byte .cb a := by
  have h4 := h.aligned
  have hunit : u.unit (u.cur / 4) = s.unit (u.cur / 4) := by rw [h.form]; rfl
  rw [h.bytes a]
  by_cases ha : u.cur ≤ a ∧ a < u.cur + k
  · have hdiv : u.cur / 4 = a / 4 := by omega
    have hmod : a - u.cur = a % 4 := by omega
    rw [if_pos ha, if_neg (by omega), if_pos ha.2, hunit, hdiv, hmod]
  · rw [if_neg ha]
    by_cases hlt : a < u.cur
    · rw [if_pos hlt, if_pos (by omega)]
    · rw [if_neg hlt, if_neg (by omega)]

/-- An accepted `EMBED` has written nothing. -/
theorem State.Embedding.accepted (s : State) (l : List HostAct) : s.Embedding (accept 0 { s with script := l }) where
  form := rfl
  aligned := rfl
  cur_le := Nat.zero_le _
  bytes a := by
    rw [accept_byte, accept_cur, if_neg (Nat.not_lt_zero a)]
    rfl

/-- What an `EMBED` has written does not depend on `STATUS` or on the host's script. -/
theorem State.Embedding.congr {s u v : State} (h : s.Embedding u)
    (hv : v = { u with script := v.script, status := v.status }) : s.Embedding v := by
  rw [hv]
  exact {
    form := by rw [h.form]
    aligned := h.aligned
    cur_le := h.cur_le
    bytes := h.bytes }

/-- A quad step writes the next whole quad (41_embed.md R73). -/
theorem State.Embedding.after_embedQuad {s u : State} (h : s.Embedding u) (hc : u.cur / 4 ≤ u.plen) :
    s.Embedding (embedQuad u) := by
  have h4 := h.aligned
  have hplen : u.plen = s.plen := by rw [h.form]
  have hcur : (embedQuad u).cur = u.cur + 4 := by rw [embedQuad_form]
  refine ⟨?_, by omega, by omega, fun a => ?_⟩
  · rw [embedQuad_form, h.form]
  · rw [embedQuad_byte, hcur, ← h.bytes_extend le_rfl]
    simp only [true_and]

/-- After the checks of an `EMBED`, with a unit left, no access of the quad step is out of range (41_embed.md R76). -/
theorem embedFault?_eq_none {s : State} (hl : s.len ≤ s.cfg.cbBytes) (hq : s.plen < s.quads) (h4 : s.cur % 4 = 0)
    (hc : s.cur / 4 ≤ s.plen) : embedFault? s = none := by
  have hstep := embedStep_in_range hl hq h4 hc
  rw [embedStep] at hstep
  cases hf : embedFault? s with
  | none => rfl
  | some f => simp [hf] at hstep

/-- Every turn of an `EMBED` answers, and leaves it somewhere in what it writes. -/
theorem State.Embedding.exists_turn {s u : State} (h : s.Embedding u) :
    ∃ v, engineTurn u = .next v ∧ s.Embedding v := by
  have ho : u.opl = 0 := by rw [h.form]
  cases hb : u.status.busy with
  | false => exact ⟨u, engineTurn_idle hb, h⟩
  | true =>
    rw [engineTurn_busy hb]
    cases hcause : embedCause u with
    | some c => exact ⟨_, engineStep_embed_cause ho hcause, h.congr rfl⟩
    | none =>
      obtain ⟨hl, hq⟩ := (embedCause_eq_none u).mp hcause
      by_cases hc : u.cur / 4 ≤ u.plen
      · exact ⟨_, engineStep_embed_quad ho hl hq h.aligned hc, h.after_embedQuad hc⟩
      · exact ⟨_, engineStep_embed_done ho hl hq hc, h.congr rfl⟩

/-- Every byte of `CB` after a reset during an `EMBED`: the draw adds byte writes of the quad it was about to write
(70_reset_and_hazards.md R121). -/
theorem State.Embedding.byte_after_reset {s u : State} (h : s.Embedding u) (drawn a : Nat) :
    (resetEvent drawn u).byte .cb a =
      if a < u.cur + (if embedWriting u = true then min drawn 4 else 0) then
        packByte (s.unit (a / 4)) (a % 4) (s.byte .cb a)
      else s.byte .cb a := by
  rw [resetEvent_byte, brokenOff_byte, ← h.bytes_extend (by split <;> omega)]
  by_cases hw : embedWriting u = true
  · rw [if_pos hw]
    simp only [hw, true_and]
  · rw [if_neg fun h => hw h.1, if_neg hw, if_neg (by omega)]

/-- Settles O34: where the `EMBED` stands when the reset comes, and the byte writes the draw adds to that. -/
theorem resetDuringEmbedLeavesInitialWrites : Obligations.ResetDuringEmbedLeavesInitialWrites := by
  intro s n drawn rest hb hs
  obtain ⟨u, hu, h⟩ := exists_engineTurns (fun _ => State.Embedding.exists_turn) n
    (State.Embedding.accepted s (.reset drawn :: rest))
  have h' : s.Embedding { u with script := rest } := h.congr rfl
  have hreset := resetEvent_form drawn { u with script := rest }
  refine ⟨_, _, run_reset_during (i := .embed) hb rfl hs hu, ?_, by rw [hreset], by rw [hreset]; rfl, by rw [hreset],
    by rw [hreset], by rw [hreset], by rw [hreset, h.form], by rw [hreset, h.form], h'.byte_after_reset drawn⟩
  have h4 := h.aligned
  have hcur := h.cur_le
  have hplen : u.plen = s.plen := by rw [h.form]
  split
  next hw =>
    obtain ⟨-, -, -, hc, -⟩ := (embedWriting_eq_true_iff _).mp hw
    dsimp only at hc ⊢
    omega
  next => exact hcur

/-- A reset after `m / 4` quads with the draw `m % 4` leaves `m` bytes written: if the draw is not 0, there is a unit
left, whose quad is about to be written. -/
theorem State.Embedding.cur_add_draw {s u : State} (h : s.Embedding u) (hb : u.status.busy = true)
    (hl : s.len ≤ s.cfg.cbBytes) (hq : s.plen < s.quads) {m : Nat} (hm : m ≤ 4 * (s.plen + 1))
    (hcur : u.cur = 4 * (m / 4)) : u.cur + (if embedWriting u = true then min (m % 4) 4 else 0) = m := by
  by_cases hdraw : m % 4 = 0
  · have hzero : (if embedWriting u = true then min (m % 4) 4 else 0) = 0 := by simp [hdraw]
    omega
  · have hl' : u.len ≤ u.cfg.cbBytes := by rw [h.form]; exact hl
    have hq' : u.plen < u.quads := by rw [h.form]; exact hq
    have hplen : u.plen = s.plen := by rw [h.form]
    have hc : u.cur / 4 ≤ u.plen := by omega
    have hw : embedWriting u = true := (embedWriting_eq_true_iff u).mpr
      ⟨hb, by rw [h.form], (embedCause_eq_none u).mpr ⟨hl', hq'⟩, hc, embedFault?_eq_none hl' hq' h.aligned hc⟩
    rw [if_pos hw]
    omega

/-- Settles O35: `m / 4` turns write as many quads, and the draw `m % 4` adds the rest (`cur_add_draw`). -/
theorem resetDuringEmbedCanLeaveAnyInitialWrites : Obligations.ResetDuringEmbedCanLeaveAnyInitialWrites := by
  intro s m hb hl hq hm
  have hturns := (embedPastChecks_accept (s := { s with script := [.reset (m % 4)] }) hl hq).turns (n := m / 4)
    (by simp only [accept_cur, accept_plen]; omega)
  refine ⟨m / 4, m % 4, _, run_reset_during (i := .embed) hb rfl rfl hturns, rfl, ?_⟩
  obtain ⟨u, hu, h⟩ := exists_engineTurns (fun _ => State.Embedding.exists_turn) (m / 4)
    (State.Embedding.accepted s [.reset (m % 4)])
  have hform := embedQuads_form (m / 4) (accept 0 { s with script := [.reset (m % 4)] })
  obtain rfl := Host.Outcome.next.inj (hturns.symm.trans hu)
  generalize embedQuad^[m / 4] _ = u at h hform
  have hcur : u.cur = 4 * (m / 4) := by rw [hform, accept_cur, Nat.zero_add]
  have hbusy : u.status.busy = true := by rw [hform, accept_status]
  have h' : s.Embedding { u with script := [] } := h.congr rfl
  intro a
  rw [h'.byte_after_reset, h'.cur_add_draw hbusy hl hq hm hcur]

/-- Where an `EXTRACT` of `s` stands in `u`: it has written the bytes of `OM` below `OLEN`, each the byte of its quad and
none of them the terminator, and nothing else (42_extract.md R83). -/
structure State.Extracting (s u : State) : Prop where
  form : u = { s with script := u.script, status := u.status, cur := u.cur, opl := 1, olen := u.olen, om := u.om }
  olen_le : u.olen ≤ s.quads
  not_terminator : ∀ j < u.olen, s.quadAt (4 * j) ≠ terminator
  bytes : ∀ j, u.byte .om j = if j < u.olen then s.quadAt (4 * j) else s.byte .om j

/-- An accepted `EXTRACT` has written nothing. -/
theorem State.Extracting.accepted (s : State) (l : List HostAct) :
    s.Extracting (accept 1 { s with script := l }) where
  form := rfl
  olen_le := Nat.zero_le _
  not_terminator j hj := absurd hj (Nat.not_lt_zero j)
  bytes j := by
    rw [accept_byte, accept_olen, if_pos rfl, if_neg (Nat.not_lt_zero j)]
    rfl

/-- What an `EXTRACT` has written does not depend on `STATUS`, on `CUR` or on the host's script. -/
theorem State.Extracting.congr {s u v : State} (h : s.Extracting u)
    (hv : v = { u with script := v.script, status := v.status, cur := v.cur }) : s.Extracting v := by
  rw [hv]
  exact {
    form := by rw [h.form]
    olen_le := h.olen_le
    not_terminator := h.not_terminator
    bytes := h.bytes }

/-- A quad step that follows appended quads only appends its own, unless it is the terminator (42_extract.md R83). -/
theorem State.Extracting.after_extractQuad {s u : State} (h : s.Extracting u) (hc : u.cur = 4 * u.olen)
    (hg : u.cur + 4 ≤ u.len) : s.Extracting (extractQuad u) := by
  have hquad : u.quadAt u.cur = s.quadAt (4 * u.olen) := by
    rw [hc]
    exact State.quadAt_congr (by rw [h.form]) _
  by_cases hz : u.quadAt u.cur = terminator
  · exact h.congr (by rw [extractQuad_stop hz])
  have hlen : u.len = s.len := by rw [h.form]
  have holen : (extractQuad u).olen = u.olen + 1 := by rw [extractQuad_append hz]
  refine ⟨by rw [extractQuad_form, h.form], by rw [holen, State.quads]; omega, fun j hj => ?_, fun j => ?_⟩
  · obtain hlt | rfl : j < u.olen ∨ j = u.olen := by omega
    · exact h.not_terminator j hlt
    · rwa [← hquad]
  · rw [extractQuad_byte, holen, h.bytes]
    by_cases hj : j = u.olen
    · rw [if_pos ⟨hz, rfl, hj⟩, if_pos (by omega), hquad, hj]
    · rw [if_neg fun h => hj h.2.2]
      by_cases hlt : j < u.olen
      · rw [if_pos hlt, if_pos (by omega)]
      · rw [if_neg hlt, if_neg (by omega)]

/-- Every turn of an `EXTRACT` answers, and leaves it somewhere in what it writes. -/
theorem State.Extracting.exists_turn {s u : State} (h : s.Extracting u) :
    ∃ v, engineTurn u = .next v ∧ s.Extracting v := by
  have ho : u.opl = 1 := by rw [h.form]
  obtain ⟨st, cur, olen, om, hturn⟩ := engineTurn_extract ho
  refine ⟨_, hturn, ?_⟩
  obtain ⟨-, hstep⟩ | ⟨-, heq⟩ := engineTurn_cases hturn
  case inr => exact heq ▸ h
  obtain ⟨c, heq, -⟩ | ⟨ho', -⟩ | ⟨-, -, hc, hg, -, heq⟩ | ⟨heq, -⟩ := engineStep_cases hstep
  · exact heq ▸ h.congr rfl
  · exact absurd (ho'.symm.trans ho) (by decide)
  · exact heq ▸ h.after_extractQuad hc hg
  · exact heq ▸ h.congr rfl

/-- Settles O36: where the `EXTRACT` stands when the reset comes, to which the reset adds nothing. -/
theorem resetDuringExtractLeavesInitialOutput : Obligations.ResetDuringExtractLeavesInitialOutput := by
  intro s n drawn rest hb hs
  obtain ⟨u, hu, h⟩ := exists_engineTurns (fun _ => State.Extracting.exists_turn) n
    (State.Extracting.accepted s (.reset drawn :: rest))
  have ho : u.opl = 1 := by rw [h.form]
  have hreset := resetEvent_form drawn { u with script := rest }
  have hcb : (resetEvent drawn { u with script := rest }).cb = u.cb :=
    resetEvent_cb drawn (embedWriting_eq_false (.inr ho))
  refine ⟨_, u.olen, run_reset_during (i := .extract) hb rfl hs hu, h.olen_le, by rw [hreset], by rw [hreset]; rfl,
    by rw [hreset], by rw [hreset], by rw [hreset], by rw [hreset, h.form], by rw [hcb, h.form], h.not_terminator,
    fun j => ?_⟩
  rw [← h.bytes j]
  exact State.byte_congr (sp := .om) (by rw [hreset]; rfl) j

end Sys2Proof.Machine
end

section
/-! # Packing and unpacking undo each other

The laws of 40_quad_layout.md R65, and what they say of an `EMBED`: no byte of `CB` moves by more than 3
(43_properties.md R92), and a second `EMBED` changes nothing (43_properties.md R97). -/

namespace Sys2Proof.Machine

open Sys2Proof

/-- Bits 7 to 2 of a byte, as a number. -/
theorem toNat_extractLsb'_cover (x : Byte) : (x.extractLsb' 2 6).toNat = x.toNat / 4 := by
  have hx := x.isLt
  rw [BitVec.extractLsb'_toNat, Nat.shiftRight_eq_div_pow]
  omega

/-- A packed channel byte keeps its upper six bits (40_quad_layout.md R65 (b)). -/
theorem packByte_ushiftRight (b : Byte) (k : Nat) (c : Byte) : packByte b k c >>> 2 = c >>> 2 := by
  apply BitVec.eq_of_toNat_eq
  rw [BitVec.toNat_ushiftRight, BitVec.toNat_ushiftRight, Nat.shiftRight_eq_div_pow, Nat.shiftRight_eq_div_pow]
  exact (toNat_extractLsb'_cover _).symm.trans
    ((congrArg BitVec.toNat (packByte_extractLsb'_cover b k c)).trans (toNat_extractLsb'_cover c))

/-- `unpack` of what `pack` writes is the unit (40_quad_layout.md R65 (a)). -/
theorem unpack_packByte (b c0 c1 c2 c3 : Byte) :
    unpack (packByte b 0 c0) (packByte b 1 c1) (packByte b 2 c2) (packByte b 3 c3) = b := by
  simp only [unpack, packByte_low, join_groups]

/-- Settles O8: packing what a quad carries leaves the low fields, because unpacking the result tells no difference. -/
theorem packAndUnpackLaws : Obligations.PackAndUnpackLaws := by
  intro b c0 c1 c2 c3
  refine ⟨unpack_packByte b c0 c1 c2 c3, ⟨packByte_ushiftRight .., packByte_ushiftRight .., packByte_ushiftRight ..,
    packByte_ushiftRight ..⟩, ?_⟩
  obtain ⟨h0, h1, h2, h3⟩ := unpack_eq_unpack_iff.mp (unpack_packByte (unpack c0 c1 c2 c3) c0 c1 c2 c3)
  rw [packByte_low] at h0 h1 h2 h3
  rw [pack, packByte_eq_self h0.symm, packByte_eq_self h1.symm, packByte_eq_self h2.symm, packByte_eq_self h3.symm]

/-- Settles O13: bytes that agree in bits 7 to 2 (O12) differ in a field of two bits. -/
theorem embedMovesNoByteByMoreThanThree : Obligations.EmbedMovesNoByteByMoreThanThree := by
  intro s hb
  obtain ⟨t, hexec, hkeep⟩ := embedKeepsUpperBits s hb
  refine ⟨t, hexec, fun a => ?_⟩
  have hdiv := congrArg BitVec.toNat (hkeep a)
  rw [toNat_extractLsb'_cover, toNat_extractLsb'_cover] at hdiv
  omega

/-- An `EMBED` leaves the units it embeds (41_embed.md R73). -/
theorem embedded_unit (s : State) (i : Nat) : (embedded s).unit i = s.unit i := by
  have hbyte : (embedded s).byte .pm i = s.byte .pm i := by rw [embedded_byte, if_neg (by simp)]
  have hplen : (embedded s).plen = s.plen := by rw [embedded_form]
  rw [State.unit, State.unit, hbyte, hplen]

/-- Embedding the same units again changes no byte (43_properties.md R97). -/
theorem embedded_embedded_byte (s : State) (sp : Space) (a : Nat) :
    (embedded (embedded s)).byte sp a = (embedded s).byte sp a := by
  have hplen : (embedded s).plen = s.plen := by rw [embedded_form]
  rw [embedded_byte (embedded s), hplen, embedded_unit]
  split
  next h =>
    obtain ⟨rfl, ha⟩ := h
    rw [embedded_byte, if_pos ⟨rfl, ha⟩, packByte_eq_self (packByte_low ..)]
  next => rfl

/-- Settles O14: after a success the checks pass again, and the same units are embedded (`embedded_embedded_byte`). -/
theorem embedIsIdempotent : Obligations.EmbedIsIdempotent := by
  intro s t h hok
  obtain ⟨c, -, hexec⟩ | ⟨hcause, hexec⟩ := exec_embed_cases (idle_of_exec h)
  all_goals obtain rfl := Host.Outcome.next.inj (hexec.symm.trans h)
  · simp at hok
  · obtain ⟨hl, hq⟩ := (embedCause_eq_none s).mp hcause
    have hform := embedded_form s
    refine ⟨_, exec_embed_of_fits (by rw [embedded_status]) ?_ ?_, by rw [embedded_status],
      embedded_embedded_byte s .cb⟩
    · rw [hform]
      exact hl
    · rw [hform]
      exact hq

end Sys2Proof.Machine
end

section
/-! # The commands as functions, and one quad of each

Each command's whole effect from an idle codec (41_embed.md R78, 42_extract.md R88) and its frame (20_memory.md R36); and
the effect of one turn of the engine in the middle of it (41_embed.md R73, 42_extract.md R83). -/

namespace Sys2Proof.Machine

open Sys2Proof

/-- The report of `BadLength` right after accept is one state, said by its fields (60_exceptions.md R102). -/
theorem raiseCause_badLength_accept (i : Instr) (s : State) :
    raiseCause .badLength (accept (encode i) s) = { s with
      status := ⟨false, true, false, true⟩, cur := 0, opl := encode i,
      olen := if i = .extract then 0 else s.olen } := by
  cases i with
  | embed => rfl
  | extract => rfl

/-- Settles O10: the two reports of `EMBED`, and `embedded`, whose bytes `embedded_byte` gives. -/
theorem embedIsTheOneStepFunction : Obligations.EmbedIsTheOneStepFunction := by
  intro s hb
  refine ⟨fun hl => ?_, fun hl hq => exec_embed_of_not_fits hb hl hq,
    fun hl hq => ⟨_, exec_embed_of_fits hb hl hq, ?_, fun a => ?_⟩⟩
  · rw [exec_of_bad_length .embed hb hl, raiseCause_badLength_accept]
    rfl
  · rw [embedded_form]
  · rw [embedded_byte]
    simp only [true_and]
    rfl

/-- An idle `EXTRACT` of a legal buffer, in full: where it stops, the registers, and every byte of `OM`
(42_extract.md R84, R88). -/
theorem exec_extract_result {s : State} (hb : s.status.busy = false) (hl : s.len ≤ s.cfg.cbBytes) :
    ∃ k t, s.StopsAt k ∧ exec .extract s = .next t ∧
      t = { s with
        om := t.om, olen := k, cur := 4 * k + (if k < s.quads then 4 else 0), opl := 1,
        status := ⟨false, true, true, false⟩ } ∧
      ∀ j, t.byte .om j = if j < k then s.quadAt (4 * j) else s.byte .om j := by
  obtain ⟨k, hk, om', hexec, happended, hstop, hom⟩ := exec_extract_of_legal hb hl
  refine ⟨k, _, ⟨hk, happended, hstop⟩, hexec, rfl, fun j => ?_⟩
  simp only [State.byte, State.mem, hom]
  split <;> rfl

/-- With no terminator among the whole quads an `EXTRACT` stops after the last (42_extract.md R84). -/
theorem State.stopsAt_quads {s : State} (h : ∀ j < s.quads, s.quadAt (4 * j) ≠ terminator) : s.StopsAt s.quads :=
  ⟨le_rfl, h, fun hlt => absurd hlt (lt_irrefl _)⟩

/-- Settles O16: the place where an `EXTRACT` stops is unique, so it is the one each case names. -/
theorem extractIsTheOneStepFunction : Obligations.ExtractIsTheOneStepFunction := by
  intro s hb r
  refine ⟨fun hl => ?_, fun hl => ?_⟩
  · rw [exec_of_bad_length .extract hb hl, raiseCause_badLength_accept]
    rfl
  obtain ⟨k, t, hk, hexec, hform, hbytes⟩ := exec_extract_result hb hl
  have holen : t.olen = k := by rw [hform]
  have hcur : t.cur = 4 * k + (if k < s.quads then 4 else 0) := by rw [hform]
  refine ⟨t, hexec, by rw [hform], fun z hz hzero hbefore => ?_, fun hnone => ?_, fun j => ?_⟩
  · obtain rfl : k = z := hk.unique ⟨hz.le, hbefore, fun _ => hzero⟩
    exact ⟨holen, by rw [hcur, if_pos (by exact hz)]; omega⟩
  · obtain rfl : k = s.quads := hk.unique (State.stopsAt_quads hnone)
    exact ⟨holen, by rw [hcur, if_neg (lt_irrefl _)]; rfl⟩
  · rw [holen]
    exact hbytes j

/-- Settles O17: the bytes appended are those of the quads before the terminator. -/
theorem extractedBytesAreNotZero : Obligations.ExtractedBytesAreNotZero := by
  intro s hb hl
  obtain ⟨k, t, hk, hexec, hform, hbytes⟩ := exec_extract_result hb hl
  have holen : t.olen = k := by rw [hform]
  rw [← holen] at hk
  refine ⟨t, hexec, hk.le_quads, le_trans hk.le_quads (Nat.div_le_div_right hl), fun j hj => ?_⟩
  rw [hbytes j, if_pos (holen ▸ hj)]
  exact hk.not_terminator j hj

/-- On a legal buffer no command sets `FAULT` (60_exceptions.md R102). -/
theorem exec_of_legal_length (i : Instr) {s : State} (hb : s.status.busy = false) (hl : s.len ≤ s.cfg.cbBytes) :
    ∃ t, exec i s = .next t ∧ t.status.fault = false := by
  cases i with
  | embed =>
    obtain hq | hq := Nat.lt_or_ge s.plen s.quads
    · exact ⟨_, exec_embed_of_fits hb hl hq, by rw [embedded_status]⟩
    · exact ⟨_, exec_embed_of_not_fits hb hl hq, rfl⟩
  | extract =>
    obtain ⟨t, hexec, hform, -⟩ := exec_extract_frame hb hl
    exact ⟨t, hexec, by rw [hform]⟩

/-- Settles O22: the report of `BadLength` is one state, and on a legal buffer there is none. -/
theorem badLengthIsReported : Obligations.BadLengthIsReported := by
  intro i s hb
  obtain hl | hl := Nat.lt_or_ge s.cfg.cbBytes s.len
  · exact ⟨_, exec_of_bad_length i hb hl, by simp [hl, Status.marked], fun _ => by simp [State.succeeded],
      fun _ => raiseCause_badLength_accept i s⟩
  · obtain ⟨t, hexec, hfault⟩ := exec_of_legal_length i hb hl
    exact ⟨t, hexec, by simp [hfault, hl], by simp [hfault], fun h => absurd h (Nat.not_lt.mpr hl)⟩

/-- Settles O24: the frames of `embedded`, of the reports and of `EXTRACT`. -/
theorem commandWritesOnlyItsFootprint : Obligations.CommandWritesOnlyItsFootprint := by
  intro i s t h
  have hb := idle_of_exec h
  cases i with
  | embed =>
    obtain ⟨c, -, hexec⟩ | ⟨-, hexec⟩ := exec_embed_cases hb
    all_goals obtain rfl := Host.Outcome.next.inj (hexec.symm.trans h)
    · exact ⟨rfl, rfl, rfl, rfl, rfl, rfl, rfl, fun _ => ⟨rfl, rfl, fun a _ => by rw [raiseCause_byte, accept_byte]⟩,
        nofun⟩
    · have hform := embedded_form s
      refine ⟨by rw [hform], by rw [hform], by rw [hform], by rw [hform], by rw [hform], by rw [hform], by rw [hform],
        fun _ => ⟨by rw [hform], by rw [hform], fun a ha => ?_⟩, nofun⟩
      have ha : 4 * (s.plen + 1) ≤ a := by simpa using ha
      rw [embedded_byte, if_neg fun h => Nat.not_lt.mpr ha h.2]
  | extract =>
    obtain hl | hl := Nat.lt_or_ge s.cfg.cbBytes s.len
    · obtain rfl := Host.Outcome.next.inj ((exec_extract_of_bad_length hb hl).symm.trans h)
      exact ⟨rfl, rfl, rfl, rfl, rfl, rfl, rfl, nofun, fun _ => ⟨rfl, fun j _ => by rw [raiseCause_byte, accept_byte]⟩⟩
    · obtain ⟨u, hexec, hform, hom⟩ := exec_extract_frame hb hl
      obtain rfl := Host.Outcome.next.inj (hexec.symm.trans h)
      exact ⟨by rw [hform], by rw [hform], by rw [hform], by rw [hform], by rw [hform], by rw [hform], by rw [hform],
        nofun, fun _ => ⟨by rw [hform], hom⟩⟩

/-- An `EXTRACT` of a legal buffer without a whole quad only completes (42_extract.md R84). -/
theorem exec_extract_of_no_quad_eq {s : State} (hb : s.status.busy = false) (hl : s.len ≤ s.cfg.cbBytes)
    (hq : s.quads = 0) : exec .extract s = .next (complete true (accept 1 s)) := by
  have hcause : extractCause (accept 1 s) = none := (extractCause_eq_none _).mpr hl
  have hquads : (accept 1 s).quads = 0 := hq
  rw [exec_extract_of_idle hb, extractAccepted, hcause, hquads]
  rfl

/-- Settles O48: after reset `LEN = 0` is legal, holds no payload with its terminator, and has no whole quad. -/
theorem resetLeavesTheSpecsValues : Obligations.ResetLeavesTheSpecsValues := by
  intro c s
  have hquads : s.quads = 0 := Nat.zero_div 4
  exact ⟨rfl, rfl, rfl, rfl, rfl, rfl, rfl, rfl,
    ⟨_, exec_embed_of_not_fits rfl (Nat.zero_le _) hquads.le, rfl, rfl, rfl, rfl⟩,
    ⟨_, exec_extract_of_no_quad_eq rfl (Nat.zero_le _) hquads, rfl, rfl, rfl, rfl, rfl⟩⟩

/-- Settles O15: the turn is a quad step of an `EMBED` past its checks, at unit `i`. -/
theorem engineEmbedsOneQuad : Obligations.EngineEmbedsOneQuad := by
  intro s i rest hs hb ho hl hq hcur hi
  have hstep : step s = .next (embedQuad { s with script := rest }) := by
    rw [step_tick hs, engineTurn_busy (by exact hb), engineStep_embed_quad (by exact ho) (by exact hl) (by exact hq)]
    all_goals dsimp only; omega
  have hbyte (a : Nat) : (embedQuad { s with script := rest }).byte .cb a =
      if 4 * i ≤ a ∧ a < 4 * i + 4 then packByte (s.unit i) (a - 4 * i) (s.byte .cb a) else s.byte .cb a := by
    rw [embedQuad_byte]
    simp only [hcur, true_and, Nat.mul_div_cancel_left i (by decide : 0 < 4)]
    rfl
  refine ⟨_, hstep, ?_, ?_, fun a ha => by rw [hbyte, if_neg (by omega)]⟩
  · rw [embedQuad_form, hcur]
  · rw [hbyte, hbyte, hbyte, hbyte]
    simp [pack, State.unit, terminator]

/-- Settles O19: the turn is a quad step of an `EXTRACT` that has appended every quad it read. -/
theorem engineExtractsOneQuad : Obligations.EngineExtractsOneQuad := by
  intro s q rest hs hb ho hl hcur holen hg r
  have hquad : State.quadAt { s with script := rest } (4 * q) = r := rfl
  have hstep : step s = .next (extractQuad { s with script := rest }) := by
    rw [step_tick hs, engineTurn_busy (by exact hb), engineStep_extract_quad (by exact ho) (by exact hl)]
    all_goals dsimp only; omega
  subst holen
  refine ⟨fun hz => ?_, fun hz => ⟨_, hstep, ?_, ?_, fun j hj => ?_⟩⟩
  · rw [hstep, extractQuad_stop (by rw [hcur]; exact hz), hcur]
  · rw [extractQuad_append (by rw [hcur]; exact hz), hcur]
  · rw [extractQuad_byte, if_pos ⟨by rw [hcur]; exact hz, rfl, rfl⟩, hcur]
    rfl
  · rw [extractQuad_byte, if_neg fun h => hj h.2.2]
    rfl

end Sys2Proof.Machine
end

section
/-! # What a command depends on

An `EMBED` reads the units and the bytes it packs them into, an `EXTRACT` the low bits of the quads up to where it stops;
what two states hold beside these makes no difference (10_state.md R26, 43_properties.md R96). So the round trip needs
no more of the second command's `LEN` than that it holds the payload and its terminator (43_properties.md R90), and ends
at the first zero byte of any payload (43_properties.md R95). -/

namespace Sys2Proof.Machine

open Sys2Proof

/-- A quad's byte depends on the low two bits of its bytes alone (40_quad_layout.md R63). -/
theorem quadAt_congr_low {s t : State} {a : Nat}
    (h : ∀ b, a ≤ b → b < a + 4 → s.byte .cb b &&& lowMask = t.byte .cb b &&& lowMask) : t.quadAt a = s.quadAt a :=
  (unpack_congr (h a le_rfl (by omega)) (h (a + 1) (by omega) (by omega)) (h (a + 2) (by omega) (by omega))
    (h (a + 3) (by omega) (by omega))).symm

/-- Where an `EXTRACT` stops depends on the whole quads up to there alone. -/
theorem State.StopsAt.congr_of_quads {s t : State} {k : Nat} (h : s.StopsAt k) (hquads : t.quads = s.quads)
    (hquadAt : ∀ j ≤ k, j < s.quads → t.quadAt (4 * j) = s.quadAt (4 * j)) : t.StopsAt k where
  le_quads := by
    rw [hquads]
    exact h.le_quads
  not_terminator j hj := by
    rw [hquadAt j hj.le (Nat.lt_of_lt_of_le hj h.le_quads)]
    exact h.not_terminator j hj
  terminator_at hk := by
    rw [hquads] at hk
    rw [hquadAt k le_rfl hk]
    exact h.terminator_at hk

/-- Two legal buffers that agree on the quads up to where an `EXTRACT` of the first stops give the same result. -/
theorem exec_extract_congr {s₁ s₂ : State} {k : Nat} (hb₁ : s₁.status.busy = false) (hb₂ : s₂.status.busy = false)
    (hcfg : s₁.cfg = s₂.cfg) (hlen : s₁.len = s₂.len) (hl : s₁.len ≤ s₁.cfg.cbBytes) (hk : s₁.StopsAt k)
    (hquadAt : ∀ j ≤ k, j < s₁.quads → s₂.quadAt (4 * j) = s₁.quadAt (4 * j)) :
    ∃ t₁ t₂, exec .extract s₁ = .next t₁ ∧ exec .extract s₂ = .next t₂ ∧ t₁.status = t₂.status ∧
      t₁.olen = k ∧ t₂.olen = k ∧ ∀ j < k, t₁.byte .om j = t₂.byte .om j := by
  have hquads : s₂.quads = s₁.quads := congrArg (· / 4) hlen.symm
  obtain ⟨t₁, hexec₁, hform₁, hbytes₁⟩ := exec_extract_of_stopsAt hb₁ hl hk
  obtain ⟨t₂, hexec₂, hform₂, hbytes₂⟩ := exec_extract_of_stopsAt hb₂ (by rw [← hcfg, ← hlen]; exact hl)
    (hk.congr_of_quads hquads hquadAt)
  refine ⟨t₁, t₂, hexec₁, hexec₂, by rw [hform₁, hform₂], by rw [hform₁], by rw [hform₂], fun j hj => ?_⟩
  rw [hbytes₁ j hj, hbytes₂ j hj, hquadAt j hj.le (Nat.lt_of_lt_of_le hj hk.le_quads)]

/-- Two buffers of one `LEN` that agree on the low bits of every whole quad give the same result. -/
theorem exec_extract_congr_low {s₁ s₂ : State} (hb₁ : s₁.status.busy = false) (hb₂ : s₂.status.busy = false)
    (hcfg : s₁.cfg = s₂.cfg) (hlen : s₁.len = s₂.len)
    (hlow : ∀ a, a < 4 * (s₁.len / 4) → s₁.byte .cb a &&& lowMask = s₂.byte .cb a &&& lowMask) :
    ∃ t₁ t₂, exec .extract s₁ = .next t₁ ∧ exec .extract s₂ = .next t₂ ∧ t₁.status = t₂.status ∧
      t₁.olen = t₂.olen ∧ ∀ j, j < t₁.olen → t₁.byte .om j = t₂.byte .om j := by
  obtain hl | hl := Nat.lt_or_ge s₁.cfg.cbBytes s₁.len
  · exact ⟨_, _, exec_extract_of_bad_length hb₁ hl,
      exec_extract_of_bad_length hb₂ (by rw [← hcfg, ← hlen]; exact hl), rfl, rfl, fun j hj => absurd hj (Nat.not_lt_zero j)⟩
  · obtain ⟨k, hk⟩ := s₁.exists_stopsAt
    obtain ⟨t₁, t₂, hexec₁, hexec₂, hstatus, holen₁, holen₂, hbytes⟩ :=
      exec_extract_congr hb₁ hb₂ hcfg hlen hl hk fun j _ hj => quadAt_congr_low fun b _ hb => hlow b (by
        rw [State.quads] at hj
        omega)
    exact ⟨t₁, t₂, hexec₁, hexec₂, hstatus, holen₁.trans holen₂.symm, holen₁ ▸ hbytes⟩

/-- Two states that agree on the units of an `EMBED` and on the bytes that it packs them into end it with the same
bytes there (10_state.md R26). -/
theorem exec_embed_congr {s₁ s₂ : State} (hb₁ : s₁.status.busy = false) (hb₂ : s₂.status.busy = false)
    (hcfg : s₁.cfg = s₂.cfg) (hlen : s₁.len = s₂.len) (hplen : s₁.plen = s₂.plen)
    (hpm : ∀ i, i < s₁.plen → s₁.byte .pm i = s₂.byte .pm i)
    (hcb : ∀ a, a < 4 * (s₁.plen + 1) → s₁.byte .cb a = s₂.byte .cb a) :
    ∃ t₁ t₂, exec .embed s₁ = .next t₁ ∧ exec .embed s₂ = .next t₂ ∧ t₁.status = t₂.status ∧
      ∀ a, a < 4 * (s₁.plen + 1) → t₁.byte .cb a = t₂.byte .cb a := by
  have hcause : embedCause s₂ = embedCause s₁ := by
    rw [embedCause, embedCause, State.quads, State.quads, hcfg, hlen, hplen]
  have hunit (i : Nat) : s₁.unit i = s₂.unit i := by
    simp only [State.unit, ← hplen]
    split
    next hi => exact hpm i hi
    next => rfl
  obtain ⟨c, hc, hexec⟩ | ⟨hc, hexec⟩ := exec_embed_cases hb₁
  · refine ⟨_, _, hexec, exec_embed_of_cause hb₂ (hcause.trans hc), ?_, fun a ha => ?_⟩
    · rw [raiseCause_accept_status, raiseCause_accept_status]
    · rw [raiseCause_byte, raiseCause_byte, accept_byte, accept_byte, hcb a ha]
  · obtain ⟨hl, hq⟩ := (embedCause_eq_none s₂).mp (hcause.trans hc)
    refine ⟨_, _, hexec, exec_embed_of_fits hb₂ hl hq, by rw [embedded_status, embedded_status], fun a ha => ?_⟩
    rw [embedded_byte, embedded_byte, if_pos ⟨rfl, ha⟩, if_pos ⟨rfl, hplen ▸ ha⟩, hunit, hcb a ha]

/-- Settles O26: `exec_embed_congr`, and for an `EXTRACT` bytes that agree have the same low bits. -/
theorem effectDependsOnOperandsAlone : Obligations.EffectDependsOnOperandsAlone := by
  intro s₁ s₂ hb₁ hb₂ hcfg hlen
  exact ⟨exec_embed_congr hb₁ hb₂ hcfg hlen,
    fun hcb => exec_extract_congr_low hb₁ hb₂ hcfg hlen fun a ha => congrArg (· &&& lowMask) (hcb a ha)⟩

/-- Settles O27: a zero quad `z` is where an `EXTRACT` stops, or after it, so nothing beyond it is read. -/
theorem extractIgnoresCoverBitsAndWhatFollows : Obligations.ExtractIgnoresCoverBitsAndWhatFollows := by
  intro s₁ s₂ hb₁ hb₂ hcfg hlen hl
  refine ⟨fun z hz hzero hlow => ?_, fun hlow => ?_⟩
  · obtain ⟨k, hk⟩ := s₁.exists_stopsAt
    have hkz : k ≤ z := Nat.le_of_not_lt fun hlt => hk.not_terminator z hlt hzero
    obtain ⟨t₁, t₂, hexec₁, hexec₂, -, holen₁, holen₂, hbytes⟩ :=
      exec_extract_congr hb₁ hb₂ hcfg hlen hl hk fun j hj _ => quadAt_congr_low fun b _ hb => hlow b (by omega)
    exact ⟨t₁, t₂, hexec₁, hexec₂, holen₁ ▸ hkz, holen₁.trans holen₂.symm, holen₁ ▸ hbytes⟩
  · obtain ⟨t₁, t₂, hexec₁, hexec₂, -, holen, hbytes⟩ := exec_extract_congr_low hb₁ hb₂ hcfg hlen hlow
    exact ⟨t₁, t₂, hexec₁, hexec₂, holen, hbytes⟩

/-- Settles O29: whatever `LEN'` is, the embedded quads are the units, the first terminator among them unit `PLEN`. -/
theorem roundTripWithAnotherLength : Obligations.RoundTripWithAnotherLength := by
  intro s len' hb hpm hcap hl hcap' hl'
  have hq : s.plen < s.quads := by rw [State.quads]; omega
  have hform := embedded_form s
  have hquadAt {i : Nat} (hi : i ≤ s.plen) : State.quadAt { embedded s with len := len' } (4 * i) = s.unit i :=
    (State.quadAt_congr rfl _).trans (embedded_quadAt hi)
  have hstop : State.StopsAt { embedded s with len := len' } s.plen := by
    refine ⟨show s.plen ≤ len' / 4 by omega, fun j hj => ?_, fun _ => (hquadAt le_rfl).trans (unit_plen s)⟩
    rw [hquadAt hj.le, unit_of_lt_plen hj]
    exact hpm j hj
  obtain ⟨u, hexec, huform, hbytes⟩ := exec_extract_of_stopsAt (s := { embedded s with len := len' })
    (by rw [embedded_status]) (by rw [hform]; exact hl') hstop
  refine ⟨_, u, exec_embed_of_fits hb hl hq, hexec, by rw [huform], by rw [huform], fun j hj => ?_⟩
  rw [hbytes j hj, hquadAt hj.le, unit_of_lt_plen hj]

/-- Settles O30: the first zero byte of the payload, or else the terminator after it, is the first terminator unit
(`exec_extract_embedded`). -/
theorem roundTripStopsAtFirstZero : Obligations.RoundTripStopsAtFirstZero := by
  intro s z hb hcap hl hz hbefore hzero
  have hq : s.plen < s.quads := by rw [State.quads]; omega
  have hunits (i : Nat) (hi : i < z) : s.unit i ≠ terminator := by
    rw [unit_of_lt_plen (by omega)]
    exact hbefore i hi
  have hunit : s.unit z = terminator := by
    obtain hlt | rfl := Nat.lt_or_eq_of_le hz
    · rw [unit_of_lt_plen hlt]
      exact hzero hlt
    · exact unit_plen s
  obtain ⟨u, hextract, hok, holen, hbytes⟩ := exec_extract_embedded hl hq hz hunits hunit
  refine ⟨_, u, exec_embed_of_fits hb hl hq, by rw [embedded_status], hextract, hok, holen, fun j hj => ?_⟩
  rw [hbytes j hj, unit_of_lt_plen (by omega)]

end Sys2Proof.Machine
end
